-- ==== Sys2Proof/Word.lean ====
section
/-! DEFINITION. The two word widths of the block: the byte and the 32-bit word of 00_scope.md rule R7. Every value is unsigned. -/

namespace Sys2Proof

/-- A byte, an unsigned integer in 0..255 (rule R7). -/
abbrev Byte := BitVec 8

/-- A word, an unsigned integer in 0..2^32-1 (rule R7); also the CAN-id container (rule R46). -/
abbrev Word := BitVec 32

end Sys2Proof
end

