-- ==== Sys2Proof/Config.lean ====
section
/-! DEFINITION. The parameter table of 00_scope.md rule R6: every literal once, by name, and the container layout `CID_LAYOUT`
(30_encoding.md rules R46, R47). The literals are unaudited (decision D34, log 17). -/

namespace Sys2Proof

/-- The six fields of the CAN-id container (41_canid.md rule R70). -/
inductive CanField where
  | sourceId
  | functionId
  | ack
  | destMac
  | srcMac
  | reserved
deriving DecidableEq, Repr

/-- All six fields, in the order of rule R70. -/
def CanField.all : List CanField :=
  [.sourceId, .functionId, .ack, .destMac, .srcMac, .reserved]

/-- The place of one field: bits `[lo + width - 1 : lo]` of the container (rule R46). -/
structure FieldPos where
  lo : Nat
  width : Nat
deriving DecidableEq, Repr

/-- `CID_LAYOUT`: the place of each of the six fields (rule R46). -/
structure Layout where
  sourceId : FieldPos
  functionId : FieldPos
  ack : FieldPos
  destMac : FieldPos
  srcMac : FieldPos
  reserved : FieldPos
deriving DecidableEq, Repr

namespace Config

/-- `HEAD`, the first byte of every serial frame. -/
def head : Byte := 0x5A#8

/-- `TAIL`, the last byte of every serial frame. -/
def tail : Byte := 0xA5#8

/-- `BUF_LEN`, the capacity of the receive queue in bytes. -/
def bufLen : Nat := 256

/-- `LEN_OVERHEAD`: the payload length is `LEN - 2`. -/
def lenOverhead : Nat := 2

/-- `FRAME_OVERHEAD`: HEAD, LEN, TYPE, CHK, TAIL. -/
def frameOverhead : Nat := 5

/-- `MIN_LEN`, the least legal value of the `LEN` byte. -/
def minLen : Nat := 2

/-- `MAX_PAYLOAD`, the largest payload `TX.ENC` accepts: `BUF_LEN - FRAME_OVERHEAD`. -/
def maxPayload : Nat := bufLen - frameOverhead

/-- The eight registered type codes by name (rule R45). -/
def typeLedsCtrl : Byte := 0x01#8
def typeSysStatus : Byte := 0x02#8
def typeBatStatus : Byte := 0x03#8
def typeModuleQuery : Byte := 0x04#8
def typeModuleCtrl : Byte := 0x06#8
def typeIrCtrl : Byte := 0x07#8
def typeCurrentQuery : Byte := 0x0A#8
def typeVersionQuery : Byte := 0x0E#8

/-- `TYPE_REGISTRY`, in registry order: the code of index `k` is entry `k` (rule R45). -/
def typeRegistry : List Byte :=
  [typeLedsCtrl, typeSysStatus, typeBatStatus, typeModuleQuery,
   typeModuleCtrl, typeIrCtrl, typeCurrentQuery, typeVersionQuery]

/-- `CID_W`, the width of the container. -/
def cidW : Nat := 32

/-- `CID_ID_W`, the width of the arbitration id proper. -/
def cidIdW : Nat := 29

/-- `US_MAC_BASE`, the first ultrasonic MAC address. -/
def usMacBase : Word := 0x60#32

/-- `US_MAC_LAST`, the last ultrasonic MAC address. -/
def usMacLast : Word := 0x6F#32

/-- `FUNC_ID_US`, the function id of the ultrasonic subsystem: no operation tests it (41_canid.md rule R79). -/
def funcIdUs : Word := 0x02#32

/-- `ACK_REQUEST` and `ACK_RESPONSE`, the meaning of the ack bit: no operation tests it (rule R79). -/
def ackRequest : Word := 0#32
def ackResponse : Word := 1#32

/-- The default `CID_LAYOUT` of rule R47. PRESUMED (the spec supplies it from general knowledge of the firmware family, 93 G1),
unsafe for a claim about a packed value: log 3. -/
def cidLayout : Layout where
  sourceId := ⟨0, 8⟩
  functionId := ⟨8, 4⟩
  ack := ⟨12, 1⟩
  destMac := ⟨13, 8⟩
  srcMac := ⟨21, 8⟩
  reserved := ⟨29, 3⟩

end Config

end Sys2Proof
end

