-- ==== Sys2Proof/Syntax.lean ====
section
/-! DEFINITION. The instructions of the block: one constructor for each of the eighteen rows of spec/opcode_table.json
(nine operations, 00_scope.md rule R5, and nine dispatch outcomes, 44_dispatch.md), and what the environment can issue. -/

namespace Sys2Proof

/-- Six field values: the operands of `CID.PACK` (each up to 32 bits, 30_encoding.md rule R48) and, zero-extended, the field
results of `CID.UNPACK` (41_canid.md rule R73). -/
structure CanFields where
  sourceId : Word
  functionId : Word
  ack : Word
  destMac : Word
  srcMac : Word
  reserved : Word
deriving DecidableEq, Repr

/-- All six operands zero: a missing field means 0 (30_encoding.md rule R52). -/
def CanFields.zero : CanFields := ⟨0#32, 0#32, 0#32, 0#32, 0#32, 0#32⟩

/-- The instructions. An `sf…` instruction is an accepted frame as the dispatcher meets it: its `LEN` byte (bits 15..8 of the
row's 24-bit value, rule R54), its type where the row leaves it free, and its payload. -/
inductive Instr where
  | csClr
  | csAdd (b : Byte)
  | csGet
  | csVfy (e : Byte)
  | cidPack (v : CanFields)
  | cidUnpack (w : Word)
  | txEnc (t : Byte) (p : List Byte)
  | rxPush (b : Byte)
  | rxFlush
  | sfLedsCtrl (len : Byte) (payload : List Byte)
  | sfSysStatus (len : Byte) (payload : List Byte)
  | sfBatStatus (len : Byte) (payload : List Byte)
  | sfModuleQuery (len : Byte) (payload : List Byte)
  | sfModuleCtrl (len : Byte) (payload : List Byte)
  | sfIrCtrl (len : Byte) (payload : List Byte)
  | sfCurrentQuery (len : Byte) (payload : List Byte)
  | sfVersionQuery (len : Byte) (payload : List Byte)
  | sfUnknown (len type : Byte) (payload : List Byte)
deriving DecidableEq, Repr

/-- The encoded form of an instruction. Only a command is issued by the environment; a frame reaches the dispatcher inside `RX.PUSH`
(44_dispatch.md), and its first three bytes are what the `SF` rows are read from. -/
inductive Request where
  /-- An operation: the 12-bit command word `op[3:0], a[7:0]` and the wide operand carriers `w`, `f_*`, `p` (rules R49, R50). -/
  | command (cmd : BitVec 12) (w : Word) (f : CanFields) (p : List Byte)
  /-- An accepted frame: the 24-bit value `byte0, byte1, byte2` of rule R54 and the payload. -/
  | frame (header : BitVec 24) (payload : List Byte)
deriving DecidableEq, Repr

/-- What the environment can do to the block (70_reset_and_hazards.md rule R160): issue an operation, by its command word and wide
operand carriers, or apply `RESET`, which is an input and not an operation (rule R155). It cannot run the dispatcher (rule R9). -/
inductive Input where
  | issue (cmd : BitVec 12) (w : Word) (f : CanFields) (p : List Byte)
  | reset
deriving DecidableEq, Repr

end Sys2Proof
end

