-- ==== Sys2Proof/WellFormed.lean ====
section
/-! DEFINITION. Which terms of `Instr` stand for something the block can meet. The nine operations take any operand
(30_encoding.md rule R50); an `sf…` term must be a frame that the parser can accept (rules R41, R45, R54). -/

namespace Sys2Proof

/-- `LEN = n + 2` (rule R41), with a payload the parser can deliver: 0..251 bytes (44_dispatch.md rule R120). -/
def acceptableLength (len : Byte) (payload : List Byte) : Bool :=
  decide (payload.length ≤ Config.maxPayload) && len.toNat == payload.length + Config.lenOverhead

/-- The type is none of the eight registered codes (rule R45): the `SF.UNKNOWN` row applies only then (rule R54). -/
def unregisteredType (t : Byte) : Bool := !Config.typeRegistry.contains t

/-- Well-formedness of an instruction. -/
def Instr.wellFormed : Instr → Bool
  | .csClr => true
  | .csAdd _ => true
  | .csGet => true
  | .csVfy _ => true
  | .cidPack _ => true
  | .cidUnpack _ => true
  | .txEnc _ _ => true
  | .rxPush _ => true
  | .rxFlush => true
  | .sfLedsCtrl len p => acceptableLength len p
  | .sfSysStatus len p => acceptableLength len p
  | .sfBatStatus len p => acceptableLength len p
  | .sfModuleQuery len p => acceptableLength len p
  | .sfModuleCtrl len p => acceptableLength len p
  | .sfIrCtrl len p => acceptableLength len p
  | .sfCurrentQuery len p => acceptableLength len p
  | .sfVersionQuery len p => acceptableLength len p
  | .sfUnknown len t p => acceptableLength len p && unregisteredType t

end Sys2Proof
end

