-- ==== Sys2Proof/Decode.lean ====
section
/-! DEFINITION. Decoding and encoding: the operation codes and the command word (30_encoding.md rules R49, R50), the 24-bit frame
value of the `SF` rows (rule R54), the encoder, and the reading of one opcode-table word. -/

namespace Sys2Proof

/-- Why a request decodes to no instruction. -/
inductive DecodeError where
  /-- The operation code is one of the seven reserved ones (rule R51). -/
  | reservedOp (op : BitVec 4)
  /-- The first byte of a frame header is not `HEAD`, so no `SF` row matches (rule R54). -/
  | noHead (byte0 : Byte)
deriving DecidableEq, Repr

/-- `op[3:0]`, bits 11..8 of the command word (rule R50). -/
def opOf (cmd : BitVec 12) : BitVec 4 := cmd.extractLsb' 8 4

/-- `a[7:0]`, bits 7..0 of the command word (rule R50). -/
def argOf (cmd : BitVec 12) : Byte := cmd.extractLsb' 0 8

/-- The command word of an operation code and a byte operand (rule R50). -/
def commandWord (op : BitVec 4) (a : Byte) : BitVec 12 := op ++ a

/-- `byte0` of a frame header, where `HEAD` stands (rule R54). -/
def headOf (header : BitVec 24) : Byte := header.extractLsb' 16 8

/-- `byte1` of a frame header, the `LEN` byte (rule R54). -/
def lenOf (header : BitVec 24) : Byte := header.extractLsb' 8 8

/-- `byte2` of a frame header, the `TYPE` byte (rule R54). -/
def typeOf (header : BitVec 24) : Byte := header.extractLsb' 0 8

/-- `HEAD * 65536 + LEN * 256 + TYPE` (rule R54). -/
def frameHeader (len t : Byte) : BitVec 24 := Config.head ++ len ++ t

/-- The operation a command selects (rule R49), or its reserved code (rule R51). An operation ignores every operand its row does
not list (rule R50). -/
def decodeCommand (cmd : BitVec 12) (w : Word) (f : CanFields) (p : List Byte) : Except (BitVec 4) Instr :=
  match (opOf cmd).toNat with
  | 0x0 => .ok .csClr
  | 0x1 => .ok (.csAdd (argOf cmd))
  | 0x2 => .ok .csGet
  | 0x3 => .ok (.csVfy (argOf cmd))
  | 0x4 => .ok (.cidPack f)
  | 0x5 => .ok (.cidUnpack w)
  | 0x8 => .ok (.txEnc (argOf cmd) p)
  | 0xC => .ok (.rxPush (argOf cmd))
  | 0xD => .ok .rxFlush
  | _ => .error (opOf cmd)

/-- The dispatch outcome a frame's type selects: a registered code first, `SF.UNKNOWN` when none matches (rules R45, R54). -/
def decodeType (len t : Byte) (p : List Byte) : Instr :=
  if t = Config.typeLedsCtrl then .sfLedsCtrl len p
  else if t = Config.typeSysStatus then .sfSysStatus len p
  else if t = Config.typeBatStatus then .sfBatStatus len p
  else if t = Config.typeModuleQuery then .sfModuleQuery len p
  else if t = Config.typeModuleCtrl then .sfModuleCtrl len p
  else if t = Config.typeIrCtrl then .sfIrCtrl len p
  else if t = Config.typeCurrentQuery then .sfCurrentQuery len p
  else if t = Config.typeVersionQuery then .sfVersionQuery len p
  else .sfUnknown len t p

/-- The `SF` row of an accepted frame's first three bytes: `byte0` must be `HEAD`; the `LEN` bits are free in every row
(rule R54: the frame has already passed its checks) and are kept as an operand (log 7). -/
def decodeFrame (header : BitVec 24) (p : List Byte) : Except DecodeError Instr :=
  if headOf header = Config.head then .ok (decodeType (lenOf header) (typeOf header) p)
  else .error (.noHead (headOf header))

/-- The instruction of a request, or the reason there is none. -/
def decode : Request → Except DecodeError Instr
  | .command cmd w f p =>
    match decodeCommand cmd w f p with
    | .ok i => .ok i
    | .error op => .error (.reservedOp op)
  | .frame header p => decodeFrame header p

/-- A command with the byte operand alone; the other carriers are unused and written as zero. -/
def byteCommand (op : BitVec 4) (a : Byte) : Request := .command (commandWord op a) 0#32 .zero []

/-- The encoding of an instruction (rules R49, R50, R54); `a` is written as 00 where it is ignored. -/
def encode : Instr → Request
  | .csClr => byteCommand 0x0#4 0#8
  | .csAdd b => byteCommand 0x1#4 b
  | .csGet => byteCommand 0x2#4 0#8
  | .csVfy e => byteCommand 0x3#4 e
  | .cidPack v => .command (commandWord 0x4#4 0#8) 0#32 v []
  | .cidUnpack w => .command (commandWord 0x5#4 0#8) w .zero []
  | .txEnc t p => .command (commandWord 0x8#4 t) 0#32 .zero p
  | .rxPush b => byteCommand 0xC#4 b
  | .rxFlush => byteCommand 0xD#4 0#8
  | .sfLedsCtrl len p => .frame (frameHeader len Config.typeLedsCtrl) p
  | .sfSysStatus len p => .frame (frameHeader len Config.typeSysStatus) p
  | .sfBatStatus len p => .frame (frameHeader len Config.typeBatStatus) p
  | .sfModuleQuery len p => .frame (frameHeader len Config.typeModuleQuery) p
  | .sfModuleCtrl len p => .frame (frameHeader len Config.typeModuleCtrl) p
  | .sfIrCtrl len p => .frame (frameHeader len Config.typeIrCtrl) p
  | .sfCurrentQuery len p => .frame (frameHeader len Config.typeCurrentQuery) p
  | .sfVersionQuery len p => .frame (frameHeader len Config.typeVersionQuery) p
  | .sfUnknown len t p => .frame (frameHeader len t) p

/-- The row of spec/opcode_table.json an instruction belongs to: its mnemonic, and its mask and match, over the 4-bit `op` for
an operation and over the 24-bit frame value for a frame type (rule R54). -/
structure TableRow where
  mnemonic : String
  mask : Nat
  pattern : Nat
deriving DecidableEq, Repr

/-- The opcode-table row of each instruction. -/
def Instr.row : Instr → TableRow
  | .csClr => ⟨"CS.CLR", 0xF, 0x0⟩
  | .csAdd _ => ⟨"CS.ADD", 0xF, 0x1⟩
  | .csGet => ⟨"CS.GET", 0xF, 0x2⟩
  | .csVfy _ => ⟨"CS.VFY", 0xF, 0x3⟩
  | .cidPack _ => ⟨"CID.PACK", 0xF, 0x4⟩
  | .cidUnpack _ => ⟨"CID.UNPACK", 0xF, 0x5⟩
  | .txEnc _ _ => ⟨"TX.ENC", 0xF, 0x8⟩
  | .rxPush _ => ⟨"RX.PUSH", 0xF, 0xC⟩
  | .rxFlush => ⟨"RX.FLUSH", 0xF, 0xD⟩
  | .sfLedsCtrl _ _ => ⟨"SF.LEDS_CTRL", 0xFF00FF, 0x5A0001⟩
  | .sfSysStatus _ _ => ⟨"SF.SYS_STATUS", 0xFF00FF, 0x5A0002⟩
  | .sfBatStatus _ _ => ⟨"SF.BAT_STATUS", 0xFF00FF, 0x5A0003⟩
  | .sfModuleQuery _ _ => ⟨"SF.MODULE_QUERY", 0xFF00FF, 0x5A0004⟩
  | .sfModuleCtrl _ _ => ⟨"SF.MODULE_CTRL", 0xFF00FF, 0x5A0006⟩
  | .sfIrCtrl _ _ => ⟨"SF.IR_CTRL", 0xFF00FF, 0x5A0007⟩
  | .sfCurrentQuery _ _ => ⟨"SF.CURRENT_QUERY", 0xFF00FF, 0x5A000A⟩
  | .sfVersionQuery _ _ => ⟨"SF.VERSION_QUERY", 0xFF00FF, 0x5A000E⟩
  | .sfUnknown _ _ _ => ⟨"SF.UNKNOWN", 0xFF0000, 0x5A0000⟩

/-- The bits of a request that its row's mask is over: the 4-bit `op`, or the 24-bit frame value (rule R54). -/
def Request.rowBits : Request → Nat
  | .command cmd _ _ _ => (opOf cmd).toNat
  | .frame header _ => header.toNat

/-- A row selects a request when the bits under its mask are its match (rule R54). -/
def TableRow.selects (row : TableRow) (r : Request) : Bool := r.rowBits &&& row.mask == row.pattern

/-- The request that an opcode-table word stands for, with every bit above the row's bits zero. An `SF` row has 24 bits,
`byte0, byte1, byte2`, and the payload that its `LEN` bits announce is zeros; an `OP` row has `op` in bits 3..0 and the table
numbers no other bit, so the bits above them are the byte operand and the wide operands are zero (log 13). -/
def requestOfTable (nbits w : Nat) : Request :=
  if nbits = 24 then
    .frame (BitVec.ofNat 24 w) (List.replicate ((lenOf (BitVec.ofNat 24 w)).toNat - Config.lenOverhead) 0#8)
  else .command (commandWord (BitVec.ofNat 4 w) (BitVec.ofNat 8 (w / 16))) 0#32 .zero []

/-- The instruction the decoder reads from an opcode-table word. -/
def decodeTableWord (nbits w : Nat) : Option Instr :=
  match decode (requestOfTable nbits w) with
  | .ok i => some i
  | .error _ => none

end Sys2Proof
end

