-- ==== Sys2Proof/Machine/Operands.lean ====
section
/-! DEFINITION. The operand forms of the CAN-ID codec: truncation, field placement, `pack` and `unpack` for an arbitrary layout
(30_encoding.md rules R46, R48; 41_canid.md rules R71 to R73). -/

namespace Sys2Proof

/-- The place of a field in a layout. -/
def Layout.pos (l : Layout) : CanField → FieldPos
  | .sourceId => l.sourceId
  | .functionId => l.functionId
  | .ack => l.ack
  | .destMac => l.destMac
  | .srcMac => l.srcMac
  | .reserved => l.reserved

/-- The low bit `lo(f)` of a field. -/
def Layout.lo (l : Layout) (f : CanField) : Nat := (l.pos f).lo

/-- The width `wd(f)` of a field. -/
def Layout.wd (l : Layout) (f : CanField) : Nat := (l.pos f).width

/-- Container bit `i` belongs to field `f`. -/
def Layout.holds (l : Layout) (f : CanField) (i : Nat) : Bool :=
  decide (l.lo f ≤ i) && decide (i < l.lo f + l.wd f)

/-- No bit belongs to both fields. -/
def Layout.apart (l : Layout) (f g : CanField) : Bool :=
  decide (l.lo f + l.wd f ≤ l.lo g) || decide (l.lo g + l.wd g ≤ l.lo f)

/-- A valid layout (rule R46): every width is at least 1, the six ranges are pairwise disjoint and their union is exactly bits
31..0, `ack` has width 1, and `src_mac` is at least 7 bits wide. -/
def Layout.valid (l : Layout) : Bool :=
  (CanField.all.all fun f => decide (1 ≤ l.wd f)) &&
  (CanField.all.all fun f => CanField.all.all fun g => f == g || l.apart f g) &&
  (CanField.all.all fun f => decide (l.lo f + l.wd f ≤ Config.cidW)) &&
  ((List.range Config.cidW).all fun i => CanField.all.any fun f => l.holds f i) &&
  l.wd .ack == 1 &&
  decide (7 ≤ l.wd .srcMac)

/-- One field value of a record. -/
def CanFields.get (v : CanFields) : CanField → Word
  | .sourceId => v.sourceId
  | .functionId => v.functionId
  | .ack => v.ack
  | .destMac => v.destMac
  | .srcMac => v.srcMac
  | .reserved => v.reserved

/-- Every value fits its field: in `0 .. 2^wd(f) - 1` (rule R70). -/
def CanFields.inRange (v : CanFields) (l : Layout) : Bool :=
  CanField.all.all fun f => decide ((v.get f).toNat < 2 ^ l.wd f)

namespace Machine

/-- `trunc_n(v) = v mod 2^n` (rule R7). -/
def trunc (n : Nat) (v : Word) : Word := BitVec.ofNat 32 (v.toNat % 2 ^ n)

/-- One operand in its place: truncated to the field, shifted left by `lo` (rule R48). -/
def place (l : Layout) (f : CanField) (v : Word) : Word := trunc (l.wd f) v <<< l.lo f

/-- One field of a container: `w[lo + width - 1 : lo]`, zero-extended (rules R7, R73). -/
def extract (l : Layout) (f : CanField) (w : Word) : Word := trunc (l.wd f) (w >>> l.lo f)

/-- `pack(v)`: the six placed operands ORed (rule R72). -/
def pack (l : Layout) (v : CanFields) : Word :=
  CanField.all.foldl (fun acc f => acc ||| place l f (v.get f)) 0#32

/-- `unpack(w)`: the six field values (rule R73). -/
def unpack (l : Layout) (w : Word) : CanFields where
  sourceId := extract l .sourceId w
  functionId := extract l .functionId w
  ack := extract l .ack w
  destMac := extract l .destMac w
  srcMac := extract l .srcMac w
  reserved := extract l .reserved w

/-- `mask(f) = (2^wd(f) - 1) * 2^lo(f)`, the container bits of a field (rule R71). -/
def fieldMask (l : Layout) (f : CanField) : Word := BitVec.ofNat 32 ((2 ^ l.wd f - 1) * 2 ^ l.lo f)

/-- The identifier proper: the container with its reserved bits cleared (rule R71, log 15). No operation's result depends on it. -/
def id29 (l : Layout) (w : Word) : Word := w &&& ~~~ fieldMask l .reserved

end Machine

end Sys2Proof
end

