-- ==== Sys2Proof/Machine/Flags.lean ====
section
/-! DEFINITION. The condition values. None is stored (10_state.md rule R16): each is a result of one operation. The auxiliary outputs
of `CID.UNPACK` (41_canid.md rules R77, R78) and the `known` and `sel` outputs of the dispatcher (44_dispatch.md rule R120). -/

namespace Sys2Proof.Machine

/-- `id_null`: the whole 32-bit container is zero (rule R77). -/
def idNull (w : Word) : Bool := w == 0#32

/-- `us_hit`: `0x60 <= src_mac <= 0x6F` (rule R78). -/
def usHit (srcMac : Word) : Bool :=
  decide (Config.usMacBase.toNat ≤ srcMac.toNat) && decide (srcMac.toNat ≤ Config.usMacLast.toNat)

/-- `us_unit`: `(src_mac - 0x60) mod 16`, for every `src_mac` (rule R78, decision D36). -/
def usUnit (srcMac : Word) : BitVec 4 := (srcMac - Config.usMacBase).setWidth 4

/-- The registry index `k` of a type code, if it has one (rule R45). -/
def registryIndex (t : Byte) : Option Nat := Config.typeRegistry.findIdx? (· == t)

/-- `known`: the type is one of the eight codes (rule R120). -/
def knownOf (t : Byte) : Bool := (registryIndex t).isSome

/-- `sel`: `2^k` for registry index `k`, zero for an unknown type (rule R120). -/
def selOf (t : Byte) : Byte :=
  match registryIndex t with
  | some k => BitVec.ofNat 8 (2 ^ k)
  | none => 0x00#8

end Sys2Proof.Machine
end

