-- ==== Sys2Proof/Machine/State.lean ====
section
/-! DEFINITION. The state of the block (10_state.md rule R10), the events and results its operations return, and the reasons a
step can stop. -/

namespace Sys2Proof.Machine

/-- The events (60_exceptions.md rule R135). An event is a value an operation returns, not state. -/
inductive Event where
  /-- An accepted frame (44_dispatch.md rule R120). -/
  | frame (type plen : Byte) (payload : List Byte) (known : Bool) (sel : Byte)
  /-- A candidate whose `LEN` byte is 0 or 1 (rule R136). -/
  | badLen
  /-- A candidate whose checksum byte is wrong (rule R137). -/
  | badChk
  /-- A candidate whose checksum is right and whose tail is wrong (rule R138). -/
  | badTail
  /-- A push into a full queue (rule R139). -/
  | overflow
  /-- A payload of `n` bytes, more than the encoder accepts (rule R140). -/
  | txTooLong (n : Nat)
  /-- A reserved operation code (rule R142). -/
  | opReserved (op : BitVec 4)
deriving DecidableEq, Repr

/-- The results of `CID.UNPACK` (41_canid.md rule R75): six fields and three auxiliary outputs. -/
structure Unpacked where
  fields : CanFields
  idNull : Bool
  usHit : Bool
  usUnit : BitVec 4
deriving DecidableEq, Repr

/-- What one operation gives back (30_encoding.md rule R49). An operation with no result gives nothing. -/
inductive Output where
  /-- `r8` of `CS.GET`. -/
  | r8 (v : Byte)
  /-- `r1` of `CS.VFY`. -/
  | r1 (v : Bool)
  /-- `rw` of `CID.PACK`. -/
  | rw (v : Word)
  /-- The results of `CID.UNPACK`. -/
  | unpacked (u : Unpacked)
  /-- `txo` of `TX.ENC`: the bytes of a frame, in the order they leave the block. -/
  | txo (bytes : List Byte)
  /-- An ordered event list. -/
  | events (evs : List Event)
deriving DecidableEq, Repr

/-- The state. `csAcc` and `rxq` are the whole architectural state (rule R10); `cidLayout` is the parameter `CID_LAYOUT`, which no
step writes (log 3); `pending` is what the environment has issued and the block has not yet taken, oldest first (log 1); `out` is
the ordered list of all results and events so far (70_reset_and_hazards.md rule R169, log 2). -/
structure State where
  csAcc : Byte
  rxq : List Byte
  cidLayout : Layout
  pending : List Input
  out : List Output
deriving DecidableEq, Repr

/-- Faults: there is none. No error of the block is fatal, there is no trap (rules R9, R141, R146), and every operation is total
(rule R168), so nothing raises a fault. Having no constructor is safe: the type itself says that no step faults. -/
inductive Fault where
deriving DecidableEq, Repr

/-- Refusals: none is ever raised. A reserved operation code is refused by an event (rule R142), and there is no stuck state (rule R9). -/
inductive Refusal where
  /-- Raised by an arm of `exec` for an instruction that has no meaning yet; safe. No arm raises it. -/
  | notModelled (mnemonic : String)
deriving DecidableEq, Repr

/-- The state right after reset (rules R21, R155, R156): the accumulator zero, the queue empty. The layout is the default of rule
R47 (PRESUMED, log 3); nothing is pending and nothing has been given back (DESIGN CHOICE, logs 1 and 2). -/
def State.reset : State where
  csAcc := 0x00#8
  rxq := []
  cidLayout := Config.cidLayout
  pending := []
  out := []

end Sys2Proof.Machine
end

