-- ==== Sys2Proof/Machine/Ops.lean ====
section
/-! DEFINITION. The named operations the meanings share: the checksum (40_checksum.md rules R60, R61), the accesses to the receive
queue (20_memory.md rule R27), the updates of the state, raising an event, and taking the environment's next input.

TAKING AN EXCEPTION: the block has none. An error is an event that the operation returns (60_exceptions.md rule R135); it saves
nothing, redirects nothing and there is nothing to return from (rules R141, R146). `raise` of rule R7 is therefore `State.give` of
the event, and what an error does to the queue stands in the parser (Rxp.lean). -/

namespace Sys2Proof.Machine

/-- `checksum(B)`: the 8-bit sum of the bytes, carries out of bit 7 discarded, 0 for the empty list (rule R60). -/
def checksum (bytes : List Byte) : Byte := bytes.foldl (· + ·) 0#8

/-- `verify(B, e)` (rule R61). -/
def verify (bytes : List Byte) (expected : Byte) : Bool := checksum bytes == expected

/-- `rxq <- rxq ++ [b]` (rule R27; made only when fewer than 256 bytes are held). -/
def Memory.append (q : List Byte) (b : Byte) : List Byte := q ++ [b]

/-- `rxq <- rxq[k..]` (rule R27). -/
def Memory.dropFront (k : Nat) (q : List Byte) : List Byte := q.drop k

/-- `rxq <- []` (rule R27). -/
def Memory.clear : List Byte := []

/-- `MemRead(i, 1)`: defined only for `i < |rxq|` (rules R7, R27, R38). -/
def Memory.read (q : List Byte) (i : Nat) : Option Byte := q[i]?

/-- The queue as (index, byte) cells of the one address space, the index space of `rxq` (10_state.md rule R19). -/
def Memory.cells (q : List Byte) : List Host.Cell := (List.range q.length).zip q

/-- The length bound of the queue (rules R12, R25). -/
def Memory.wf (q : List Byte) : Bool := decide (q.length ≤ Config.bufLen)

/-- `q[i..j]`: the elements of index `i` to `j` inclusive, `[]` when `j < i` (rule R7). -/
def slice (q : List Byte) (i j : Nat) : List Byte := (q.take (j + 1)).drop i

/-- `CS_ACC <- v`. -/
def State.setAcc (s : State) (v : Byte) : State := { s with csAcc := v }

/-- `rxq <- q`. -/
def State.setRxq (s : State) (q : List Byte) : State := { s with rxq := q }

/-- Give a result to the environment: it comes after all earlier ones (rules R144, R169). -/
def State.give (s : State) (o : Output) : State := { s with out := s.out ++ [o] }

/-- The environment's remaining inputs. -/
def State.setPending (s : State) (l : List Input) : State := { s with pending := l }

/-- `ev_code`, the numeric code of an event (rule R135). -/
def Event.code : Event → BitVec 4
  | .frame _ _ _ _ _ => 0x1#4
  | .badLen => 0x2#4
  | .badChk => 0x3#4
  | .badTail => 0x4#4
  | .overflow => 0x5#4
  | .txTooLong _ => 0x6#4
  | .opReserved _ => 0x7#4

/-- `RESET`, whole and atomic (rule R155): it emits nothing and clears the two items of state. What the environment has issued
after it and what it has been given before it are the environment's (log 14). -/
def applyReset (s : State) : State := (s.setAcc 0x00#8).setRxq Memory.clear

/-- A reserved operation code (rule R142): no state changes, the single event `OP_RESERVED(op)` (log 8). -/
def raiseReserved (op : BitVec 4) (s : State) : State := s.give (.events [.opReserved op])

/-- What the environment's next input comes to. -/
inductive Fetched where
  | idle
  | reset (s : State)
  | run (i : Instr) (s : State)
  | reserved (op : BitVec 4) (s : State)

/-- Take the oldest pending input (log 1): the state goes on without it. -/
def fetch (s : State) : Fetched :=
  match s.pending with
  | [] => .idle
  | .reset :: rest => .reset (s.setPending rest)
  | .issue cmd w f p :: rest =>
    match decodeCommand cmd w f p with
    | .ok i => .run i (s.setPending rest)
    | .error op => .reserved op (s.setPending rest)

end Sys2Proof.Machine
end

