-- ==== Sys2Proof/Machine/Cic.lean ====
section
/-! DEFINITION. The CAN-ID codec (41_canid.md): `CID.PACK`, `CID.UNPACK`, over the layout the machine has. Nothing is checked: not
`function_id`, not `ack`, not `source_id`, not `reserved` (rule R79). -/

namespace Sys2Proof.Machine

/-- The results of `CID.UNPACK` (rule R75). -/
def unpackResults (l : Layout) (w : Word) : Unpacked where
  fields := unpack l w
  idNull := idNull w
  usHit := usHit (unpack l w).srcMac
  usUnit := usUnit (unpack l w).srcMac

/-- `CID.PACK v -> rw` (rule R74). -/
def execCidPack (v : CanFields) (s : State) : Host.Outcome State Fault Refusal :=
  .next (s.give (.rw (pack s.cidLayout v)))

/-- `CID.UNPACK w` (rule R75): every word is accepted. -/
def execCidUnpack (w : Word) (s : State) : Host.Outcome State Fault Refusal :=
  .next (s.give (.unpacked (unpackResults s.cidLayout w)))

end Sys2Proof.Machine
end

