-- ==== Sys2Proof/Machine/Csu.lean ====
section
/-! DEFINITION. The checksum unit (40_checksum.md): `CS.CLR`, `CS.ADD`, `CS.GET`, `CS.VFY`. -/

namespace Sys2Proof.Machine

/-- `CS.CLR` (rule R62). -/
def execCsClr (s : State) : Host.Outcome State Fault Refusal := .next (s.setAcc 0x00#8)

/-- `CS.ADD b` (rule R63): the carry is discarded and recorded nowhere. -/
def execCsAdd (b : Byte) (s : State) : Host.Outcome State Fault Refusal := .next (s.setAcc (s.csAcc + b))

/-- `CS.GET -> r8` (rule R64): reading does not clear. -/
def execCsGet (s : State) : Host.Outcome State Fault Refusal := .next (s.give (.r8 s.csAcc))

/-- `CS.VFY e -> r1` (rule R65): a mismatch is the result 0, not an event. -/
def execCsVfy (e : Byte) (s : State) : Host.Outcome State Fault Refusal := .next (s.give (.r1 (s.csAcc == e)))

end Sys2Proof.Machine
end

