-- ==== Sys2Proof/Machine/Dsp.lean ====
section
/-! DEFINITION. The frame-type dispatcher (44_dispatch.md): the function `dispatch` that `RX.PUSH` applies to every accepted frame,
and the nine dispatch outcomes, one for each `SF` row. It is combinational and takes no step of its own (00_scope.md rule R9): an outcome happens inside the push that
completes its frame (log 6). The payload is opaque and its length is checked against nothing (rule R121). -/

namespace Sys2Proof.Machine

/-- The event of an accepted frame with given `known` and `sel` outputs; `plen` is 8 bits (rule R120). -/
def frameEvent (t : Byte) (p : List Byte) (known : Bool) (sel : Byte) : Event :=
  .frame t (BitVec.ofNat 8 p.length) p known sel

/-- `dispatch(t, p)` (rule R120). -/
def dispatch (t : Byte) (p : List Byte) : Event := frameEvent t p (knownOf t) (selOf t)

/-- Deliver one `FRAME` event: the dispatcher updates no state record (rule R120). -/
def deliver (t : Byte) (p : List Byte) (known : Bool) (sel : Byte) (s : State) : Host.Outcome State Fault Refusal :=
  .next (s.give (.events [frameEvent t p known sel]))

/-- `SF.LEDS_CTRL` (rule R122). The `LEN` byte has done its work in the parser; every meaning below leaves it (log 7). -/
def execSfLedsCtrl (_len : Byte) (p : List Byte) (s : State) : Host.Outcome State Fault Refusal :=
  deliver Config.typeLedsCtrl p true 0x01#8 s

/-- `SF.SYS_STATUS` (rule R123). -/
def execSfSysStatus (_len : Byte) (p : List Byte) (s : State) : Host.Outcome State Fault Refusal :=
  deliver Config.typeSysStatus p true 0x02#8 s

/-- `SF.BAT_STATUS` (rule R124). -/
def execSfBatStatus (_len : Byte) (p : List Byte) (s : State) : Host.Outcome State Fault Refusal :=
  deliver Config.typeBatStatus p true 0x04#8 s

/-- `SF.MODULE_QUERY` (rule R125). -/
def execSfModuleQuery (_len : Byte) (p : List Byte) (s : State) : Host.Outcome State Fault Refusal :=
  deliver Config.typeModuleQuery p true 0x08#8 s

/-- `SF.MODULE_CTRL` (rule R126). -/
def execSfModuleCtrl (_len : Byte) (p : List Byte) (s : State) : Host.Outcome State Fault Refusal :=
  deliver Config.typeModuleCtrl p true 0x10#8 s

/-- `SF.IR_CTRL` (rule R127). -/
def execSfIrCtrl (_len : Byte) (p : List Byte) (s : State) : Host.Outcome State Fault Refusal :=
  deliver Config.typeIrCtrl p true 0x20#8 s

/-- `SF.CURRENT_QUERY` (rule R128). -/
def execSfCurrentQuery (_len : Byte) (p : List Byte) (s : State) : Host.Outcome State Fault Refusal :=
  deliver Config.typeCurrentQuery p true 0x40#8 s

/-- `SF.VERSION_QUERY` (rule R129). -/
def execSfVersionQuery (_len : Byte) (p : List Byte) (s : State) : Host.Outcome State Fault Refusal :=
  deliver Config.typeVersionQuery p true 0x80#8 s

/-- `SF.UNKNOWN` (rule R130): delivered all the same, with `known = 0`. -/
def execSfUnknown (_len t : Byte) (p : List Byte) (s : State) : Host.Outcome State Fault Refusal :=
  deliver t p false 0x00#8 s

end Sys2Proof.Machine
end

