-- ==== Sys2Proof/Machine/Rxp.lean ====
section
/-! DEFINITION. The serial frame parser (43_frame_rx.md): one decode attempt, the loop of `RX.PUSH`, `RX.FLUSH`, and the stream view. -/

namespace Sys2Proof.Machine

/-- Why a candidate failed (rule R95). -/
inductive Reason where
  | badLen
  | badChk
  | badTail
deriving DecidableEq, Repr

/-- The verdict of a decode attempt (rule R95). -/
inductive Verdict where
  | frame (t : Byte) (p : List Byte)
  | needMoreData
  | invalid (r : Reason)
deriving DecidableEq, Repr

/-- The event that reports a failed candidate (rules R136 to R138). -/
def reasonEvent : Reason → Event
  | .badLen => .badLen
  | .badChk => .badChk
  | .badTail => .badTail

/-- Step 1 of rule R96: drop the bytes before the first `HEAD`; with no `HEAD`, drop every byte (rule R97). -/
def scanHead (q : List Byte) : List Byte := q.dropWhile (· != Config.head)

/-- Steps 2 to 5 of rule R96, on a queue that is empty or begins with `HEAD`. Every index is proved below the length where it is
read (20_memory.md rule R38). -/
def decodeCandidate (q : List Byte) : Verdict × List Byte :=
  if h2 : q.length < 2 then (.needMoreData, q)
  else
    let len := (q[1]'(by omega)).toNat
    if len < Config.minLen then (.invalid .badLen, Memory.dropFront 1 q)
    else if hchk : q.length < len + 2 then (.needMoreData, q)
    else if checksum (slice q 2 len) ≠ q[len + 1]'(by omega) then (.invalid .badChk, Memory.dropFront 1 q)
    else if htail : q.length < len + 3 then (.needMoreData, q)
    else if q[len + 2]'(by omega) ≠ Config.tail then (.invalid .badTail, Memory.dropFront 1 q)
    else (.frame (q[2]'(by omega)) (slice q 3 len), Memory.dropFront (len + 3) q)

/-- `decode1(q)` (rule R96). -/
def decode1 (q : List Byte) : Verdict × List Byte := decodeCandidate (scanHead q)

/-- Put an event before those found later (rule R103). -/
def firstEvent (e : Event) (r : List Event × List Byte) : List Event × List Byte := (e :: r.1, r.2)

/-- The loop of rule R100: decode attempts until `NeedMoreData`. Every other verdict removes a byte at least (rule R102), so more
turns than bytes are never taken and the bound is never met by `pushByte` (log 11). -/
def drain : Nat → List Byte → List Event × List Byte
  | 0, q => ([], q)
  | turns + 1, q =>
    match decode1 q with
    | (.needMoreData, q') => ([], q')
    | (.invalid r, q') => firstEvent (reasonEvent r) (drain turns q')
    | (.frame t p, q') => firstEvent (dispatch t p) (drain turns q')

/-- `RX.PUSH b` on the queue: the events and the new queue (rules R100, R101). A queue that holds `BUF_LEN` bytes overflows: it is
emptied, the byte is lost with it and no attempt is made. -/
def pushByte (q : List Byte) (b : Byte) : List Event × List Byte :=
  if Config.bufLen ≤ q.length then ([.overflow], Memory.clear)
  else drain (q.length + 2) (Memory.append q b)

/-- `feed(q, bs)`, the stream view (rule R110) and the pseudo-operation `RX.FEED` (30_encoding.md rule R53). -/
def feed (q : List Byte) : List Byte → List Event × List Byte
  | [] => ([], q)
  | b :: bs =>
    let r := pushByte q b
    let r' := feed r.2 bs
    (r.1 ++ r'.1, r'.2)

/-- `RX.PUSH b -> evs` (rule R100). -/
def execRxPush (b : Byte) (s : State) : Host.Outcome State Fault Refusal :=
  let r := pushByte s.rxq b
  .next ((s.setRxq r.2).give (.events r.1))

/-- `RX.FLUSH` (rule R104): no event, whatever the queue held. -/
def execRxFlush (s : State) : Host.Outcome State Fault Refusal := .next (s.setRxq Memory.clear)

end Sys2Proof.Machine
end

