-- ==== Sys2Proof/Machine/Txe.lean ====
section
/-! DEFINITION. The serial frame encoder (42_frame_tx.md): `TX.ENC`. It sums with an adder of its own and leaves `CS_ACC` alone
(10_state.md rule R11). -/

namespace Sys2Proof.Machine

/-- `encode(t, p) = [0x5A, n + 2, t] ++ p ++ [checksum([t] ++ p), 0xA5]` (rule R85), for `n <= 253` (log 18). -/
def encodeFrame (t : Byte) (p : List Byte) : List Byte :=
  [Config.head, BitVec.ofNat 8 (p.length + Config.lenOverhead), t] ++ p ++ [checksum (t :: p), Config.tail]

/-- The bytes of a frame up to its tail, under the first byte of a header: what a queue holds just before the push that completes
the frame. -/
def frameUntilTail (header : BitVec 24) (p : List Byte) : List Byte :=
  headOf header :: (encodeFrame (typeOf header) p).tail.dropLast

/-- What `TX.ENC t, p` gives: the frame, or `TX_TOO_LONG(n)` and no byte when `n > 251` (rules R86, R87). -/
def txResult (t : Byte) (p : List Byte) : Output :=
  if Config.maxPayload < p.length then .events [.txTooLong p.length] else .txo (encodeFrame t p)

/-- `TX.ENC t, p -> txo` (rule R86): the type is not validated (rule R88). -/
def execTxEnc (t : Byte) (p : List Byte) (s : State) : Host.Outcome State Fault Refusal :=
  .next (s.give (txResult t p))

end Sys2Proof.Machine
end

