-- ==== Sys2Proof/Machine/Dispatch.lean ====
section
/-! DEFINITION. One arm for each instruction. -/

namespace Sys2Proof.Machine

def exec (i : Instr) (s : State) : Host.Outcome State Fault Refusal :=
  match i with
  | .csClr => Sys2Proof.Machine.execCsClr s
  | .csAdd b => Sys2Proof.Machine.execCsAdd b s
  | .csGet => Sys2Proof.Machine.execCsGet s
  | .csVfy e => Sys2Proof.Machine.execCsVfy e s
  | .cidPack v => Sys2Proof.Machine.execCidPack v s
  | .cidUnpack w => Sys2Proof.Machine.execCidUnpack w s
  | .txEnc t p => Sys2Proof.Machine.execTxEnc t p s
  | .rxPush b => Sys2Proof.Machine.execRxPush b s
  | .rxFlush => Sys2Proof.Machine.execRxFlush s
  | .sfLedsCtrl len p => Sys2Proof.Machine.execSfLedsCtrl len p s
  | .sfSysStatus len p => Sys2Proof.Machine.execSfSysStatus len p s
  | .sfBatStatus len p => Sys2Proof.Machine.execSfBatStatus len p s
  | .sfModuleQuery len p => Sys2Proof.Machine.execSfModuleQuery len p s
  | .sfModuleCtrl len p => Sys2Proof.Machine.execSfModuleCtrl len p s
  | .sfIrCtrl len p => Sys2Proof.Machine.execSfIrCtrl len p s
  | .sfCurrentQuery len p => Sys2Proof.Machine.execSfCurrentQuery len p s
  | .sfVersionQuery len p => Sys2Proof.Machine.execSfVersionQuery len p s
  | .sfUnknown len t p => Sys2Proof.Machine.execSfUnknown len t p s

end Sys2Proof.Machine
end

