-- ==== Sys2Proof/Machine/Step.lean ====
section
/-! DEFINITION. One step: take the environment's next input (00_scope.md rule R5: each operation is one atomic step). -/

namespace Sys2Proof.Machine

/-- One step. It always answers a next state: nothing is fatal and no state is stuck (rule R9). With nothing pending the block waits
and nothing changes (70_reset_and_hazards.md rule R169, log 4). -/
def step (s : State) : Host.Outcome State Fault Refusal :=
  match fetch s with
  | .idle => .next s
  | .reset s' => .next (applyReset s')
  | .run i s' => exec i s'
  | .reserved op s' => .next (raiseReserved op s')

/-- The state whose next step runs one opcode-table word (logs 1, 13). An operation is issued ahead of whatever is pending. A dispatch
outcome runs inside `RX.PUSH` (rule R9): the queue holds its frame up to the tail, and the push of the tail is issued. -/
def State.withFetchWord (s : State) (nbits w : Nat) : State :=
  match requestOfTable nbits w with
  | .command cmd w f p => s.setPending (.issue cmd w f p :: s.pending)
  | .frame header p =>
    (s.setRxq (frameUntilTail header p)).setPending (.issue (commandWord 0xC#4 Config.tail) 0#32 .zero [] :: s.pending)

end Sys2Proof.Machine
end

