-- ==== Sys2Proof/Machine/Pseudo.lean ====
section
/-! DEFINITION. The pseudo-operations of 30_encoding.md rule R53, each an expansion into operations, a run of operations, and
a run of steps. -/

namespace Sys2Proof.Machine

/-- `CS.SUM [b0, ..., bk-1] -> s` (rule R53). -/
def csSum (bytes : List Byte) : List Instr := .csClr :: (bytes.map .csAdd ++ [.csGet])

/-- `CS.CHECK [b0, ..., bk-1], e -> ok` (rule R53). -/
def csCheck (bytes : List Byte) (e : Byte) : List Instr := .csClr :: (bytes.map .csAdd ++ [.csVfy e])

/-- `RX.FEED [b0, ..., bk-1] -> evs` (rule R53). -/
def rxFeed (bytes : List Byte) : List Instr := bytes.map .rxPush

/-- Operations one after another, in issue order (20_memory.md rule R33). -/
def runInstrs : List Instr → State → Host.Outcome State Fault Refusal
  | [], s => .next s
  | i :: is, s =>
    match exec i s with
    | .next t => runInstrs is t
    | .fault r => .fault r
    | .refused r => .refused r

/-- So many steps one after another. -/
def runSteps : Nat → State → Host.Outcome State Fault Refusal
  | 0, s => .next s
  | k + 1, s =>
    match step s with
    | .next t => runSteps k t
    | .fault r => .fault r
    | .refused r => .refused r

/-- The events among the results of a run, in order (70_reset_and_hazards.md rule R169). -/
def eventsOf (outs : List Output) : List Event :=
  outs.flatMap fun o =>
    match o with
    | .events evs => evs
    | _ => []

end Sys2Proof.Machine
end

