-- ==== Sys2Proof/Safety.lean ====
section
/-! DEFINITION. The terms in which statements about the block speak: the quiescent forms of the receive queue, the state invariant,
the loop of the parser as a relation, the reachable states, the units, and the fate of received bytes. -/

namespace Sys2Proof.Machine

/-- The four forms of a quiescent queue (43_frame_rx.md rule R106). -/
inductive QueueForm where
  | q0
  | q1
  | q2
  | q3
deriving DecidableEq, Repr

/-- The queue is in the form (rule R106, the table's conditions row by row). -/
def InForm : QueueForm → List Byte → Prop
  | .q0, q => q = []
  | .q1, q => q = [Config.head]
  | .q2, q => ∃ len body, q = Config.head :: len :: body ∧ Config.minLen ≤ len.toNat ∧ q.length < len.toNat + 2
  | .q3, q => ∃ len body, q = Config.head :: len :: body ∧ Config.minLen ≤ len.toNat ∧ q.length = len.toNat + 2 ∧
      q[len.toNat + 1]? = some (checksum (slice q 2 len.toNat))

/-- The quiescent invariant of the queue (rule R106). -/
def Quiescent (q : List Byte) : Prop := ∃ f, InForm f q

/-- The state invariant (10_state.md rule R22), and the validity of the layout the machine has (30_encoding.md rule R46). -/
def Inv (s : State) : Prop := s.cidLayout.valid = true ∧ Memory.wf s.rxq = true ∧ Quiescent s.rxq

/-- The states reachable from reset: a step, or the environment changing what it has issued (70_reset_and_hazards.md rule R160). -/
inductive Reachable : State → Prop where
  | reset : Reachable State.reset
  | input (s : State) (l : List Input) : Reachable s → Reachable (s.setPending l)
  | step (s t : State) : Reachable s → step s = .next t → Reachable t

/-- The loop of `RX.PUSH` (rule R100) as the rule writes it, with no bound on its turns: from queue `q` it produces the events and
ends with the queue. -/
inductive Drains : List Byte → List Event → List Byte → Prop where
  | stop (q q' : List Byte) : decode1 q = (.needMoreData, q') → Drains q [] q'
  | invalid (q q' q'' : List Byte) (r : Reason) (evs : List Event) :
      decode1 q = (.invalid r, q') → Drains q' evs q'' → Drains q (reasonEvent r :: evs) q''
  | frame (q q' q'' : List Byte) (t : Byte) (p : List Byte) (evs : List Event) :
      decode1 q = (.frame t p, q') → Drains q' evs q'' → Drains q (dispatch t p :: evs) q''

/-- The five units (00_scope.md rule R3). The agents that execute steps are four: the dispatcher acts inside the parser (rule R9). -/
inductive BlockUnit where
  | csu
  | cic
  | txe
  | rxp
  | dsp
deriving DecidableEq, Repr

/-- The unit an instruction belongs to (rule R5; the `SF` rows are the dispatcher's). -/
def unitOf : Instr → BlockUnit
  | .csClr => .csu
  | .csAdd _ => .csu
  | .csGet => .csu
  | .csVfy _ => .csu
  | .cidPack _ => .cic
  | .cidUnpack _ => .cic
  | .txEnc _ _ => .txe
  | .rxPush _ => .rxp
  | .rxFlush => .rxp
  | .sfLedsCtrl _ _ => .dsp
  | .sfSysStatus _ _ => .dsp
  | .sfBatStatus _ _ => .dsp
  | .sfModuleQuery _ _ => .dsp
  | .sfModuleCtrl _ _ => .dsp
  | .sfIrCtrl _ _ => .dsp
  | .sfCurrentQuery _ _ => .dsp
  | .sfVersionQuery _ _ => .dsp
  | .sfUnknown _ _ _ => .dsp

/-- The bytes that a run of instructions adds on the checksum unit, in order. -/
def addends (is : List Instr) : List Byte :=
  is.filterMap fun i =>
    match i with
    | .csAdd b => some b
    | _ => none

/-- The wire bytes of an accepted frame, for the fate of received bytes (43_frame_rx.md rule R108). -/
def acceptedBytes : Event → Option (List Byte)
  | .frame t _ p _ _ => some (encodeFrame t p)
  | _ => none

/-- The byte that an input adds to the received stream: that of an `RX.PUSH`; no other operation and no reset adds one. -/
def receivedByte : Input → Option Byte
  | .reset => none
  | .issue cmd w f p =>
    match decodeCommand cmd w f p with
    | .ok (.rxPush b) => some b
    | _ => none

/-- `q` holds the byte strings in order, no two overlapping, and ends with `rest`; the bytes between them are the discarded ones
(rule R108). -/
def HoldsInOrder : List (List Byte) → List Byte → List Byte → Prop
  | [], rest, q => ∃ gap, q = gap ++ rest
  | f :: fs, rest, q => ∃ gap q', q = gap ++ f ++ q' ∧ HoldsInOrder fs rest q'

/-- The reserved operation codes (30_encoding.md rule R51). -/
def reservedOps : List (BitVec 4) := [0x6#4, 0x7#4, 0x9#4, 0xA#4, 0xB#4, 0xE#4, 0xF#4]

end Sys2Proof.Machine
end

