-- ==== Sys2Proof/Certificates/Slice0/Obligations.lean ====
section
/-! DEFINITION. The statements for the provers. Each docstring names the rule of spec/ it formalises; `D<n>` is the decision of
92_eei_decisions.md the rule rests on, where it rests on one. A statement of what an instruction does is an equation: it says that
the instruction answers a next state, what that state is, and so that nothing else changes. -/

open Sys2Proof Sys2Proof.Machine

/-! ## The checksum unit -/

/-- Rule R62 (D5): `CS.CLR` in any command word `0x0aa` sets `CS_ACC` to zero and does nothing else. -/
def Obligations.ClearZeroesAccumulator : Prop :=
  ∀ (a : Byte) (w : Word) (f : CanFields) (p : List Byte) (s : State),
    encode .csClr = .command 0x000#12 0#32 .zero [] ∧
    decode (.command (commandWord 0x0#4 a) w f p) = .ok .csClr ∧
    exec .csClr s = .next { s with csAcc := 0x00#8 }

/-- Rule R63 (D5): `CS.ADD b`, command word `0x100 + b`, adds modulo 256 and does nothing else. -/
def Obligations.AddIsModulo256 : Prop :=
  ∀ (b : Byte) (w : Word) (f : CanFields) (p : List Byte) (s : State),
    decode (.command (BitVec.ofNat 12 (0x100 + b.toNat)) w f p) = .ok (.csAdd b) ∧
    ∃ r : Byte, r.toNat = (s.csAcc.toNat + b.toNat) % 256 ∧
      exec (.csAdd b) s = .next { s with csAcc := r }

/-- Rule R64 (D5): `CS.GET` returns `CS_ACC` and clears nothing; right after `CS.CLR`, and right after reset, it returns zero. -/
def Obligations.GetReturnsAccumulator : Prop :=
  ∀ (a : Byte) (w : Word) (f : CanFields) (p : List Byte) (s : State),
    encode .csGet = .command 0x200#12 0#32 .zero [] ∧
    decode (.command (commandWord 0x2#4 a) w f p) = .ok .csGet ∧
    exec .csGet s = .next { s with out := s.out ++ [.r8 s.csAcc] } ∧
    runInstrs [.csClr, .csGet] s = .next { s with csAcc := 0x00#8, out := s.out ++ [.r8 0x00#8] } ∧
    exec .csGet State.reset = .next { State.reset with out := [.r8 0x00#8] }

/-- Rule R65 (D5): `CS.VFY e`, command word `0x300 + e`, returns whether `CS_ACC = e` and changes nothing; right after `CS.CLR` and
right after reset it is true of zero alone. -/
def Obligations.VerifyComparesAccumulator : Prop :=
  ∀ (e : Byte) (w : Word) (f : CanFields) (p : List Byte) (s : State),
    decode (.command (BitVec.ofNat 12 (0x300 + e.toNat)) w f p) = .ok (.csVfy e) ∧
    exec (.csVfy e) s = .next { s with out := s.out ++ [.r1 (decide (s.csAcc = e))] } ∧
    runInstrs [.csClr, .csVfy e] s = .next { s with csAcc := 0x00#8, out := s.out ++ [.r1 (decide (e = 0x00#8))] } ∧
    exec (.csVfy e) State.reset = .next { State.reset with out := [.r1 (decide (e = 0x00#8))] }

/-- Rules R60 (D6), R61: the checksum is the sum of the bytes modulo 256, zero for the empty list, grows byte by byte, and `verify`
holds exactly of it. -/
def Obligations.ChecksumIsSumModulo256 : Prop :=
  checksum [] = 0x00#8 ∧
  ∀ (bytes : List Byte),
    (checksum bytes).toNat = (bytes.map BitVec.toNat).sum % 256 ∧
    (∀ b : Byte, (checksum (bytes ++ [b])).toNat = ((checksum bytes).toNat + b.toNat) % 256) ∧
    (∀ e : Byte, verify bytes e = true ↔ checksum bytes = e)

/-- 40_checksum.md section 3, the arithmetic laws: the checksum of a concatenation, of a reordering, with a zero byte inserted, and of
256 copies of one byte. -/
def Obligations.ChecksumArithmeticLaws : Prop :=
  (∀ a b : List Byte, (checksum (a ++ b)).toNat = ((checksum a).toNat + (checksum b).toNat) % 256) ∧
  (∀ a b : List Byte, a.Perm b → checksum a = checksum b) ∧
  (∀ a b : List Byte, checksum (a ++ 0x00#8 :: b) = checksum (a ++ b)) ∧
  (∀ x : Byte, checksum (List.replicate 256 x) = 0x00#8)

/-- Rule R68: (a) a range verifies against its checksum; (b) changing one byte is always detected; (c) what is not detected: changes
whose sums differ by a multiple of 256, a reordering, an inserted zero byte. -/
def Obligations.ChecksumDetection : Prop :=
  (∀ b : List Byte, verify b (checksum b) = true) ∧
  (∀ (a c : List Byte) (x y : Byte), x ≠ y →
    checksum (a ++ y :: c) ≠ checksum (a ++ x :: c) ∧ verify (a ++ y :: c) (checksum (a ++ x :: c)) = false) ∧
  (∀ b b' : List Byte, (b.map BitVec.toNat).sum % 256 = (b'.map BitVec.toNat).sum % 256 → verify b' (checksum b) = true) ∧
  (∀ b b' : List Byte, b.Perm b' → verify b' (checksum b) = true) ∧
  (∀ a c : List Byte, verify (a ++ 0x00#8 :: c) (checksum (a ++ c)) = true ∧ verify (a ++ c) (checksum (a ++ 0x00#8 :: c)) = true) ∧
  checksum [0x10#8, 0x20#8] = 0x30#8 ∧ checksum [0x11#8, 0x1F#8] = 0x30#8

/-- Rule R66: the streaming law. A run whose only operations of the checksum unit are additions, whatever operations of other units
stand among them, adds the checksum of the added bytes; after `CS.CLR` the sum is the checksum itself, and `CS.GET` and `CS.VFY e`
then return it and `verify`. -/
def Obligations.StreamingLaw : Prop :=
  (∀ (is : List Instr) (s : State), (∀ i ∈ is, unitOf i = .csu → ∃ b, i = .csAdd b) →
    ∃ t, runInstrs is s = .next t ∧ t.csAcc = s.csAcc + checksum (addends is) ∧
      ∃ t', runInstrs (.csClr :: is) s = .next t' ∧ t'.csAcc = checksum (addends is) ∧
        exec .csGet t' = .next { t' with out := t'.out ++ [.r8 (checksum (addends is))] } ∧
        ∀ e, exec (.csVfy e) t' = .next { t' with out := t'.out ++ [.r1 (verify (addends is) e)] }) ∧
  (∀ (bytes : List Byte) (s : State),
    runInstrs (csSum bytes) s = .next { s with csAcc := checksum bytes, out := s.out ++ [.r8 (checksum bytes)] }) ∧
  (∀ (bytes : List Byte) (e : Byte) (s : State),
    runInstrs (csCheck bytes e) s = .next { s with csAcc := checksum bytes, out := s.out ++ [.r1 (verify bytes e)] })

/-! ## The CAN-ID codec -/

/-- Rule R72 (D12, D13): `pack` is the OR of the six truncated operands at their places, for every layout; for a valid layout each bit
of each field is the operand's; for the default layout it is the sum the rule writes out (the default is the spec's, log 3). -/
def Obligations.PackPlacesFields : Prop :=
  (∀ (l : Layout) (v : CanFields), pack l v =
    CanField.all.foldl (fun acc f => acc ||| BitVec.ofNat 32 ((v.get f).toNat % 2 ^ l.wd f * 2 ^ l.lo f)) 0#32) ∧
  (∀ (l : Layout) (v : CanFields), l.valid = true → ∀ f i, i < l.wd f →
    (pack l v).getLsbD (l.lo f + i) = (v.get f).getLsbD i) ∧
  (∀ v : CanFields, (pack Config.cidLayout v).toNat =
    v.sourceId.toNat % 256 + v.functionId.toNat % 16 * 2 ^ 8 + v.ack.toNat % 2 * 2 ^ 12 + v.destMac.toNat % 256 * 2 ^ 13 +
      v.srcMac.toNat % 256 * 2 ^ 21 + v.reserved.toNat % 8 * 2 ^ 29)

/-- Rule R73: `unpack` gives bits `[lo + wd - 1 : lo]` of each field, zero-extended, for every layout and every word; for the default
layout, the six ranges the rule lists. -/
def Obligations.UnpackExtractsFields : Prop :=
  (∀ (l : Layout) (w : Word) (f : CanField), ((unpack l w).get f).toNat = w.toNat / 2 ^ l.lo f % 2 ^ l.wd f) ∧
  (∀ w : Word, unpack Config.cidLayout w =
    ⟨(w.extractLsb' 0 8).setWidth 32, (w.extractLsb' 8 4).setWidth 32, (w.extractLsb' 12 1).setWidth 32,
     (w.extractLsb' 13 8).setWidth 32, (w.extractLsb' 21 8).setWidth 32, (w.extractLsb' 29 3).setWidth 32⟩)

/-- Rule R74 (D13): `CID.PACK` returns `pack` of its operands under the layout the machine has and changes no state; zero operands
give the null id; operands at their maxima give all ones; only the low bits of an operand count; and the rule's two examples. -/
def Obligations.PackReturnsContainer : Prop :=
  ∀ (a : Byte) (w : Word) (p : List Byte) (v : CanFields) (s : State),
    decode (.command (commandWord 0x4#4 a) w v p) = .ok (.cidPack v) ∧
    exec (.cidPack v) s = .next { s with out := s.out ++ [.rw (pack s.cidLayout v)] } ∧
    pack s.cidLayout .zero = 0x00000000#32 ∧
    (s.cidLayout.valid = true → (∀ f, (v.get f).toNat = 2 ^ s.cidLayout.wd f - 1) → pack s.cidLayout v = 0xFFFFFFFF#32) ∧
    (∀ v' : CanFields, (∀ f, (v.get f).toNat % 2 ^ s.cidLayout.wd f = (v'.get f).toNat % 2 ^ s.cidLayout.wd f) →
      pack s.cidLayout v = pack s.cidLayout v') ∧
    pack Config.cidLayout ⟨0x12#32, 0x2#32, 1#32, 0x01#32, 0x63#32, 0#32⟩ = 0x0C603212#32 ∧
    pack Config.cidLayout ⟨0x112#32, 0x12#32, 3#32, 0x101#32, 0x163#32, 8#32⟩ = 0x0C603212#32

/-- Rule R75 (D16): `CID.UNPACK` returns the six fields of every word under the layout the machine has, and the three auxiliary
outputs computed as the rule's pseudocode writes them, and changes no state; the zero word has every field zero; and the rule's
example, under the default layout. -/
def Obligations.UnpackReturnsFields : Prop :=
  ∀ (a : Byte) (w : Word) (f : CanFields) (p : List Byte) (s : State),
    decode (.command (commandWord 0x5#4 a) w f p) = .ok (.cidUnpack w) ∧
    exec (.cidUnpack w) s = .next { s with out := s.out ++ [.unpacked
      { fields := unpack s.cidLayout w
        idNull := decide (w = 0x00000000#32)
        usHit := decide (0x60 ≤ (unpack s.cidLayout w).srcMac.toNat ∧ (unpack s.cidLayout w).srcMac.toNat ≤ 0x6F)
        usUnit := BitVec.ofInt 4 (((unpack s.cidLayout w).srcMac.toNat : Int) - 0x60) }] } ∧
    unpack s.cidLayout 0x00000000#32 = .zero ∧
    unpack Config.cidLayout 0x0C603212#32 = ⟨0x12#32, 0x2#32, 1#32, 0x01#32, 0x63#32, 0#32⟩

/-- Rules R77 (D15) and R78 (D36): `id_null` is the whole container being zero, so a lone reserved bit is not null; `us_hit` is the
source address lying in `0x60..0x6F`, both ends included; `us_unit` is then its distance from `0x60`, and always its low four bits. -/
def Obligations.NullIdAndAddressFilter : Prop :=
  ∀ (w : Word) (s : State), ∃ u : Unpacked,
    exec (.cidUnpack w) s = .next { s with out := s.out ++ [.unpacked u] } ∧
    (u.idNull = true ↔ w = 0x00000000#32) ∧
    (w = 0x20000000#32 → u.idNull = false) ∧
    (u.usHit = true ↔ 0x60 ≤ u.fields.srcMac.toNat ∧ u.fields.srcMac.toNat ≤ 0x6F) ∧
    (u.usHit = true → u.usUnit.toNat = u.fields.srcMac.toNat - 0x60) ∧
    u.usUnit = u.fields.srcMac.extractLsb' 0 4 ∧
    (u.fields.srcMac = 0x5F#32 ∨ u.fields.srcMac = 0x70#32 → u.usHit = false)

/-- Rule R76, for every valid layout: (a) an in-range record comes back; (b) any record comes back truncated; (c) every word comes
back; (d) unpacking gives in-range records, so the two are inverse bijections. -/
def Obligations.ContainerRoundTrips : Prop :=
  ∀ l : Layout, l.valid = true →
    (∀ v : CanFields, v.inRange l = true → unpack l (pack l v) = v) ∧
    (∀ (v : CanFields) (f : CanField), ((unpack l (pack l v)).get f).toNat = (v.get f).toNat % 2 ^ l.wd f) ∧
    (∀ w : Word, pack l (unpack l w) = w) ∧
    (∀ w : Word, (unpack l w).inRange l = true)

/-- 41_canid.md section 1: for a valid layout the six masks are pairwise disjoint and their OR is all ones, a mask's bits are its
field's, and under the default layout the identifier proper is bits 28..0 (what it is under another layout is the model's reading,
log 15, and not stated). -/
def Obligations.MasksTileContainer : Prop :=
  (∀ l : Layout, l.valid = true →
    (∀ f g, f ≠ g → fieldMask l f &&& fieldMask l g = 0#32) ∧
    CanField.all.foldl (fun acc f => acc ||| fieldMask l f) 0#32 = 0xFFFFFFFF#32 ∧
    (∀ f i, (fieldMask l f).getLsbD i = true ↔ l.lo f ≤ i ∧ i < l.lo f + l.wd f)) ∧
  (∀ w : Word, id29 Config.cidLayout w = (w.extractLsb' 0 29).setWidth 32)

/-! ## The frame encoder -/

/-- Rules R85, R86 (D10), R140: `TX.ENC t, p` returns the `n + 5` bytes of the frame for `n <= 251`, and the single event
`TX_TOO_LONG(n)` and no byte beyond; it changes no state and takes any type byte. -/
def Obligations.EncodeReturnsFrame : Prop :=
  ∀ (t : Byte) (p : List Byte) (w : Word) (f : CanFields) (s : State),
    decode (.command (commandWord 0x8#4 t) w f p) = .ok (.txEnc t p) ∧
    (p.length ≤ 253 →
      encodeFrame t p = [0x5A#8, BitVec.ofNat 8 (p.length + 2), t] ++ p ++ [checksum ([t] ++ p), 0xA5#8] ∧
      (BitVec.ofNat 8 (p.length + 2)).toNat = p.length + 2 ∧ (encodeFrame t p).length = p.length + 5) ∧
    (p.length ≤ 251 → exec (.txEnc t p) s = .next { s with out := s.out ++ [.txo (encodeFrame t p)] }) ∧
    (251 < p.length → exec (.txEnc t p) s = .next { s with out := s.out ++ [.events [.txTooLong p.length]] })

/-- Rule R92: the encoder is injective. -/
def Obligations.EncodeInjective : Prop :=
  ∀ (t t' : Byte) (p p' : List Byte), p.length ≤ 253 → p'.length ≤ 253 →
    encodeFrame t p = encodeFrame t' p' → t = t' ∧ p = p'

/-- Rule R89: feeding an encoded frame to an empty parser gives nothing for all bytes but the last, exactly the frame's event at the
last, and leaves the queue empty; for every type and every payload the encoder takes. -/
def Obligations.FrameRoundTrip : Prop :=
  ∀ (t : Byte) (p : List Byte) (s : State), p.length ≤ 251 → s.rxq = [] →
    runInstrs (rxFeed (encodeFrame t p)) s =
      .next { s with out := s.out ++ List.replicate (p.length + 4) (.events []) ++ [.events [dispatch t p]] }

/-! ## The frame parser -/

/-- Rule R96 (D8, D17, D18): one decode attempt, case by case in the rule's order, on a queue written as bytes without `HEAD`, then
`HEAD`, `LEN` and the bytes after it. -/
def Obligations.DecodeAttemptVerdicts : Prop :=
  ∀ noise : List Byte, 0x5A#8 ∉ noise →
    decode1 noise = (.needMoreData, []) ∧
    decode1 (noise ++ [0x5A#8]) = (.needMoreData, [0x5A#8]) ∧
    ∀ (len : Byte) (body : List Byte),
      (len.toNat < 2 → decode1 (noise ++ 0x5A#8 :: len :: body) = (.invalid .badLen, len :: body)) ∧
      (2 ≤ len.toNat → body.length < len.toNat →
        decode1 (noise ++ 0x5A#8 :: len :: body) = (.needMoreData, 0x5A#8 :: len :: body)) ∧
      (∀ (summed : List Byte) (chk : Byte) (rest : List Byte),
        body = summed ++ chk :: rest → 2 ≤ len.toNat → summed.length + 1 = len.toNat →
        (checksum summed ≠ chk → decode1 (noise ++ 0x5A#8 :: len :: body) = (.invalid .badChk, len :: body)) ∧
        (checksum summed = chk → rest = [] →
          decode1 (noise ++ 0x5A#8 :: len :: body) = (.needMoreData, 0x5A#8 :: len :: body)) ∧
        (∀ (x : Byte) (more : List Byte), checksum summed = chk → rest = x :: more → x ≠ 0xA5#8 →
          decode1 (noise ++ 0x5A#8 :: len :: body) = (.invalid .badTail, len :: body)) ∧
        (∀ (t : Byte) (p more : List Byte), checksum summed = chk → rest = 0xA5#8 :: more → summed = t :: p →
          decode1 (noise ++ 0x5A#8 :: len :: body) = (.frame t p, more)))

/-- Rules R100 (D21) and R101 (D20): `RX.PUSH b` appends the byte and runs the loop of decode attempts to its end, giving exactly the
loop's events in their order and leaving exactly the loop's queue; into a full queue it gives `OVERFLOW` alone and leaves the queue
empty. Nothing else changes. -/
def Obligations.PushRunsDecodeLoop : Prop :=
  ∀ (b : Byte) (w : Word) (f : CanFields) (p : List Byte) (s : State),
    decode (.command (BitVec.ofNat 12 (0xC00 + b.toNat)) w f p) = .ok (.rxPush b) ∧
    (s.rxq.length < 256 → ∃ evs q', Drains (s.rxq ++ [b]) evs q' ∧
      (∀ evs' q'', Drains (s.rxq ++ [b]) evs' q'' → evs' = evs ∧ q'' = q') ∧
      exec (.rxPush b) s = .next { s with rxq := q', out := s.out ++ [.events evs] }) ∧
    (s.rxq.length = 256 →
      exec (.rxPush b) s = .next { s with rxq := [], out := s.out ++ [.events [.overflow]] })

/-- Rule R102: the loop ends. Every attempt that decides something removes a byte, an accepted frame five at least; from every queue
the loop has an end, with at most as many events as bytes; so one push gives at most 256 events. -/
def Obligations.DecodeLoopEnds : Prop :=
  (∀ (q q' : List Byte) (r : Reason), decode1 q = (.invalid r, q') → q'.length + 1 ≤ q.length) ∧
  (∀ (q q' p : List Byte) (t : Byte), decode1 q = (.frame t p, q') → q'.length + 5 ≤ q.length) ∧
  (∀ q : List Byte, ∃ evs q', Drains q evs q' ∧ evs.length ≤ q.length) ∧
  (∀ (b : Byte) (s : State), s.rxq.length ≤ 256 → ∃ t evs, exec (.rxPush b) s = .next t ∧
    t.out = s.out ++ [.events evs] ∧ evs.length ≤ 256)

/-- Rule R104 (D22): `RX.FLUSH` empties the queue, gives no event whatever it held, and does nothing else. -/
def Obligations.FlushEmptiesQueue : Prop :=
  ∀ (a : Byte) (w : Word) (f : CanFields) (p : List Byte) (s : State),
    encode .rxFlush = .command 0xD00#12 0#32 .zero [] ∧
    decode (.command (commandWord 0xD#4 a) w f p) = .ok .rxFlush ∧
    exec .rxFlush s = .next { s with rxq := [] }

/-- Rule R106: the four forms exclude one another; in each a further attempt changes nothing; in the last three the queue is a proper
beginning of a well-formed frame; the reset queue is in one of them and every operation leaves the queue in one. -/
def Obligations.QuiescentForms : Prop :=
  (∀ (f g : QueueForm) (q : List Byte), InForm f q → InForm g q → f = g) ∧
  (∀ q : List Byte, Quiescent q → decode1 q = (.needMoreData, q)) ∧
  (∀ (f : QueueForm) (q : List Byte), InForm f q → f ≠ .q0 →
    ∃ t p rest, p.length ≤ 253 ∧ rest ≠ [] ∧ encodeFrame t p = q ++ rest) ∧
  Quiescent State.reset.rxq ∧ (∀ s : State, Quiescent (applyReset s).rxq) ∧
  (∀ (i : Instr) (s t : State), Quiescent s.rxq → exec i s = .next t → Quiescent t.rxq)

/-- Rule R107 (D9): a full quiescent queue stands behind `LEN` `0xFF` in form Q2 or `0xFE` in form Q3; overflow needs a full queue;
what becomes of a candidate with `LEN` `0xFF` and of one with `0xFE`; a payload of 251 bytes is accepted and no longer one is, from
any queue within its bound. -/
def Obligations.OverflowOnlyBehindOversizedLength : Prop :=
  (∀ q : List Byte, Quiescent q → q.length = 256 →
    (InForm .q2 q ∧ q[1]? = some 0xFF#8) ∨ (InForm .q3 q ∧ q[1]? = some 0xFE#8)) ∧
  (∀ (q : List Byte) (len : Byte), Quiescent q → q[1]? = some len → len.toNat ≤ 253 → q.length ≤ len.toNat + 2) ∧
  (∀ (b : Byte) (s t : State) (evs : List Event), s.rxq.length ≤ 256 → exec (.rxPush b) s = .next t →
    t.out = s.out ++ [.events evs] → (.overflow ∈ evs ↔ s.rxq.length = 256)) ∧
  (∀ (body : List Byte) (c : Byte), body.length = 254 →
    feed [] (0x5A#8 :: 0xFF#8 :: body) = ([], 0x5A#8 :: 0xFF#8 :: body) ∧
    feed [] (0x5A#8 :: 0xFF#8 :: body ++ [c]) = ([.overflow], [])) ∧
  (∀ (body : List Byte) (c x : Byte), body.length = 253 →
    (checksum body ≠ c → ∃ evs q', feed [] (0x5A#8 :: 0xFE#8 :: body ++ [c]) = (.badChk :: evs, q') ∧ .overflow ∉ evs) ∧
    (checksum body = c →
      feed [] (0x5A#8 :: 0xFE#8 :: body ++ [c]) = ([], 0x5A#8 :: 0xFE#8 :: body ++ [c]) ∧
      feed [] (0x5A#8 :: 0xFE#8 :: body ++ [c, x]) = ([.overflow], []))) ∧
  (∀ (t : Byte) (p : List Byte), p.length = 251 → feed [] (encodeFrame t p) = ([dispatch t p], [])) ∧
  (∀ (b : Byte) (s t : State) (evs : List Event) (type plen sel : Byte) (p : List Byte) (known : Bool),
    s.rxq.length ≤ 256 → exec (.rxPush b) s = .next t → t.out = s.out ++ [.events evs] → .frame type plen p known sel ∈ evs →
    p.length ≤ 251 ∧ plen.toNat = p.length)

/-- Rule R108: conservation of bytes. The bytes that were buffered and pushed are, in order, the wire bytes of the accepted frames,
each once and none overlapping, and at the end the bytes still buffered; whatever lies between them was discarded. So over any stream
of pushes; and so over any list of inputs (log 1), in which pushes, flushes, resets, the other units' operations and reserved codes
stand in any order, each of them taken by one step. -/
def Obligations.ConservationOfBytes : Prop :=
  (∀ (bytes : List Byte) (s : State), ∃ t outs, runInstrs (rxFeed bytes) s = .next t ∧ t.out = s.out ++ outs ∧
    HoldsInOrder ((eventsOf outs).filterMap acceptedBytes) t.rxq (s.rxq ++ bytes)) ∧
  (∀ (inputs rest : List Input) (s : State), s.pending = inputs ++ rest →
    ∃ t outs, runSteps inputs.length s = .next t ∧ t.pending = rest ∧ t.out = s.out ++ outs ∧
      HoldsInOrder ((eventsOf outs).filterMap acceptedBytes) t.rxq (s.rxq ++ inputs.filterMap receivedByte))

/-- 43_frame_rx.md section 3, resynchronisation (a): a corrupted frame between two valid ones does not keep the following frame from
being delivered. `len :: xs` are the bytes after the corrupted frame's head: `LEN` intact, no `HEAD` among them. -/
def Obligations.RecoveryAfterCorruptedFrame : Prop :=
  ∀ (s : State) (ta tb : Byte) (pa pb : List Byte) (len : Byte) (xs : List Byte),
    s.rxq = [] → pa.length ≤ 251 → pb.length ≤ 251 →
    2 ≤ len.toNat → len.toNat ≤ 253 → xs.length = len.toNat + 1 → 0x5A#8 ∉ len :: xs →
    ∃ outs, runInstrs (rxFeed (encodeFrame ta pa ++ (0x5A#8 :: len :: xs) ++ encodeFrame tb pb)) s =
        .next { s with out := s.out ++ outs } ∧
      eventsOf outs = [dispatch ta pa,
        (if xs[len.toNat - 1]? ≠ some (checksum (xs.take (len.toNat - 1))) then Event.badChk
         else if xs[len.toNat]? ≠ some 0xA5#8 then Event.badTail
         else dispatch (xs.headD 0x00#8) ((xs.drop 1).take (len.toNat - 2))),
        dispatch tb pb]

/-- Rule R110: the stream view. Pushing bytes one by one is `feed`: the events are its events in order, one result a push, and the
queue is its queue; feeding in bursts is feeding the whole. -/
def Obligations.FeedIsStreamView : Prop :=
  (∀ (bytes : List Byte) (s : State), ∃ outs,
    runInstrs (rxFeed bytes) s = .next { s with rxq := (feed s.rxq bytes).2, out := s.out ++ outs } ∧
    outs.length = bytes.length ∧ eventsOf outs = (feed s.rxq bytes).1) ∧
  (∀ q : List Byte, feed q [] = ([], q)) ∧
  (∀ (q : List Byte) (b : Byte) (bs : List Byte),
    feed q ([b] ++ bs) = ((pushByte q b).1 ++ (feed (pushByte q b).2 bs).1, (feed (pushByte q b).2 bs).2)) ∧
  (∀ q xs ys : List Byte,
    feed q (xs ++ ys) = ((feed q xs).1 ++ (feed (feed q xs).2 ys).1, (feed (feed q xs).2 ys).2))

/-- 43_frame_rx.md section 1, step 1 in words (D17): bytes with no `HEAD` pushed into an empty queue are dropped silently, one by
one, and never count toward the queue's length. -/
def Obligations.NoiseIsDroppedSilently : Prop :=
  ∀ (noise : List Byte) (s : State), s.rxq = [] → 0x5A#8 ∉ noise →
    runInstrs (rxFeed noise) s = .next { s with out := s.out ++ List.replicate noise.length (.events []) }

/-- 43_frame_rx.md section 4 and 70_reset_and_hazards.md section 4, false-head capture: while a candidate waits for its `CHK` byte,
a pushed byte is only buffered, whatever its value, a genuine head included. -/
def Obligations.WaitingCandidateHoldsBytes : Prop :=
  ∀ (b len : Byte) (body : List Byte) (s : State),
    s.rxq = 0x5A#8 :: len :: body → 2 ≤ len.toNat → body.length + 1 < len.toNat →
    exec (.rxPush b) s = .next { s with rxq := s.rxq ++ [b], out := s.out ++ [.events []] }

/-! ## The dispatcher -/

/-- Rule R120 (D23): a registered code at index `k` gives `known = 1` and `sel = 2^k`; any other gives `known = 0` and `sel = 0`; the
payload is delivered either way, with its length in the eight bits of `plen`. -/
def Obligations.DispatchClassifiesType : Prop :=
  ∀ (t : Byte) (p : List Byte),
    (∀ k, [0x01#8, 0x02#8, 0x03#8, 0x04#8, 0x06#8, 0x07#8, 0x0A#8, 0x0E#8][k]? = some t →
      dispatch t p = .frame t (BitVec.ofNat 8 p.length) p true (BitVec.ofNat 8 (2 ^ k))) ∧
    (t ∉ [0x01#8, 0x02#8, 0x03#8, 0x04#8, 0x06#8, 0x07#8, 0x0A#8, 0x0E#8] →
      dispatch t p = .frame t (BitVec.ofNat 8 p.length) p false 0x00#8) ∧
    (p.length ≤ 251 → (BitVec.ofNat 8 p.length).toNat = p.length)

/-- Rules R122 to R129: each of the eight known types delivers its `FRAME` event with the payload unchanged and does nothing else;
and each rule's example stream. -/
def Obligations.KnownTypesDeliver : Prop :=
  (∀ (len : Byte) (p : List Byte) (s : State),
    exec (.sfLedsCtrl len p) s = .next { s with out := s.out ++ [.events [.frame 0x01#8 (BitVec.ofNat 8 p.length) p true 0x01#8]] } ∧
    exec (.sfSysStatus len p) s = .next { s with out := s.out ++ [.events [.frame 0x02#8 (BitVec.ofNat 8 p.length) p true 0x02#8]] } ∧
    exec (.sfBatStatus len p) s = .next { s with out := s.out ++ [.events [.frame 0x03#8 (BitVec.ofNat 8 p.length) p true 0x04#8]] } ∧
    exec (.sfModuleQuery len p) s = .next { s with out := s.out ++ [.events [.frame 0x04#8 (BitVec.ofNat 8 p.length) p true 0x08#8]] } ∧
    exec (.sfModuleCtrl len p) s = .next { s with out := s.out ++ [.events [.frame 0x06#8 (BitVec.ofNat 8 p.length) p true 0x10#8]] } ∧
    exec (.sfIrCtrl len p) s = .next { s with out := s.out ++ [.events [.frame 0x07#8 (BitVec.ofNat 8 p.length) p true 0x20#8]] } ∧
    exec (.sfCurrentQuery len p) s = .next { s with out := s.out ++ [.events [.frame 0x0A#8 (BitVec.ofNat 8 p.length) p true 0x40#8]] } ∧
    exec (.sfVersionQuery len p) s = .next { s with out := s.out ++ [.events [.frame 0x0E#8 (BitVec.ofNat 8 p.length) p true 0x80#8]] }) ∧
  feed [] [0x5A#8, 0x07#8, 0x01#8, 0x01#8, 0xFF#8, 0x00#8, 0x00#8, 0x0A#8, 0x0B#8, 0xA5#8] =
    ([.frame 0x01#8 5#8 [0x01#8, 0xFF#8, 0x00#8, 0x00#8, 0x0A#8] true 0x01#8], []) ∧
  feed [] [0x5A#8, 0x02#8, 0x02#8, 0x02#8, 0xA5#8] = ([.frame 0x02#8 0#8 [] true 0x02#8], []) ∧
  feed [] [0x5A#8, 0x04#8, 0x03#8, 0x64#8, 0x00#8, 0x67#8, 0xA5#8] = ([.frame 0x03#8 2#8 [0x64#8, 0x00#8] true 0x04#8], []) ∧
  feed [] [0x5A#8, 0x06#8, 0x04#8, 0x00#8, 0x00#8, 0x00#8, 0x00#8, 0x04#8, 0xA5#8] =
    ([.frame 0x04#8 4#8 [0x00#8, 0x00#8, 0x00#8, 0x00#8] true 0x08#8], []) ∧
  feed [] [0x5A#8, 0x05#8, 0x06#8, 0x5A#8, 0xA5#8, 0x5A#8, 0x5F#8, 0xA5#8] =
    ([.frame 0x06#8 3#8 [0x5A#8, 0xA5#8, 0x5A#8] true 0x10#8], []) ∧
  feed [] [0x5A#8, 0x04#8, 0x07#8, 0x01#8, 0x32#8, 0x3A#8, 0xA5#8] = ([.frame 0x07#8 2#8 [0x01#8, 0x32#8] true 0x20#8], []) ∧
  feed [] [0x5A#8, 0x04#8, 0x0A#8, 0xFF#8, 0xFF#8, 0x08#8, 0xA5#8] = ([.frame 0x0A#8 2#8 [0xFF#8, 0xFF#8] true 0x40#8], []) ∧
  feed [] [0x5A#8, 0x03#8, 0x0E#8, 0x00#8, 0x0E#8, 0xA5#8] = ([.frame 0x0E#8 1#8 [0x00#8] true 0x80#8], [])

/-- Rule R130: a type that is none of the eight codes is delivered all the same, with `known = 0` and `sel = 0`, and nothing else
happens; and the rule's two example streams. -/
def Obligations.UnknownTypeDelivers : Prop :=
  (∀ (len t : Byte) (p : List Byte) (s : State),
    (t ∉ [0x01#8, 0x02#8, 0x03#8, 0x04#8, 0x06#8, 0x07#8, 0x0A#8, 0x0E#8] →
      decode (.frame (frameHeader len t) p) = .ok (.sfUnknown len t p)) ∧
    exec (.sfUnknown len t p) s =
      .next { s with out := s.out ++ [.events [.frame t (BitVec.ofNat 8 p.length) p false 0x00#8]] }) ∧
  feed [] [0x5A#8, 0x03#8, 0x05#8, 0xAA#8, 0xAF#8, 0xA5#8] = ([.frame 0x05#8 1#8 [0xAA#8] false 0x00#8], []) ∧
  feed [] [0x5A#8, 0x02#8, 0x00#8, 0x00#8, 0xA5#8] = ([.frame 0x00#8 0#8 [] false 0x00#8], [])

/-- 44_dispatch.md, first paragraph: the dispatcher runs inside `RX.PUSH` and nowhere else; no command decodes to a row of it. Where the first decode attempt of a push accepts a frame,
the first event of the push is the one that the frame's row of the opcode table gives; every `FRAME` event of a push is the one that
the row of the frame's own header, `LEN` being `n + 2`, gives; and any header of a type gives that type's row (that `exec` shows a row
by itself is the model's choice, log 6). -/
def Obligations.PushDeliversThroughItsRow : Prop :=
  (∀ (b len t : Byte) (p q' : List Byte) (s : State), s.rxq.length < 256 → decode1 (s.rxq ++ [b]) = (.frame t p, q') →
    ∃ i e evs u, decode (.frame (frameHeader len t) p) = .ok i ∧ unitOf i = .dsp ∧
      exec i s = .next { s with out := s.out ++ [.events [e]] } ∧
      exec (.rxPush b) s = .next u ∧ u.out = s.out ++ [.events (e :: evs)]) ∧
  (∀ (b t plen sel : Byte) (p : List Byte) (known : Bool) (evs : List Event) (s u : State), s.rxq.length ≤ 256 →
    exec (.rxPush b) s = .next u → u.out = s.out ++ [.events evs] → .frame t plen p known sel ∈ evs →
    ∃ i, decode (.frame (frameHeader (BitVec.ofNat 8 (p.length + 2)) t) p) = .ok i ∧ i.wellFormed = true ∧ unitOf i = .dsp ∧
      exec i s = .next { s with out := s.out ++ [.events [.frame t plen p known sel]] }) ∧
  (∀ (len t : Byte) (p : List Byte) (s : State), ∃ i,
    decode (.frame (frameHeader len t) p) = .ok i ∧ unitOf i = .dsp ∧
    exec i s = .next { s with out := s.out ++ [.events [dispatch t p]] }) ∧
  (∀ (cmd : BitVec 12) (w : Word) (f : CanFields) (p : List Byte) (i : Instr),
    decode (.command cmd w f p) = .ok i → unitOf i ≠ .dsp)

/-! ## Steps, reset and the reserved codes -/

/-- 00_scope.md section 4, with the model's list of pending inputs (log 1): a step takes the oldest command, and where it decodes,
runs that instruction on the state without it. A dispatch outcome is run by the push of its frame's tail (log 6): where the queue holds
a frame up to its tail, that step is `exec` of the frame's row on the state without the command and the frame. -/
def Obligations.StepRunsDecodedInstruction : Prop :=
  (∀ (cmd : BitVec 12) (w : Word) (f : CanFields) (p : List Byte) (rest : List Input) (i : Instr) (s : State),
    s.pending = .issue cmd w f p :: rest → decode (.command cmd w f p) = .ok i → step s = exec i { s with pending := rest }) ∧
  (∀ (w : Word) (f : CanFields) (p' : List Byte) (t : Byte) (p : List Byte) (rest : List Input) (i : Instr) (s : State),
    p.length ≤ 251 → s.rxq ++ [0xA5#8] = encodeFrame t p → s.pending = .issue 0xCA5#12 w f p' :: rest →
    decode (.frame (frameHeader (BitVec.ofNat 8 (p.length + 2)) t) p) = .ok i →
    step s = exec i { s with pending := rest, rxq := [] })

/-- 70_reset_and_hazards.md section 3, the model's choice (log 4): with nothing issued a step changes nothing. -/
def Obligations.IdleStepChangesNothing : Prop :=
  ∀ s : State, s.pending = [] → step s = .next s

/-- Rule R142 (D30): exactly the seven reserved codes decode to no instruction, and a step that meets one gives the single event
`OP_RESERVED(op)` and changes no state (that the run goes on is read from program P6, log 8). -/
def Obligations.ReservedCodesAreReported : Prop :=
  ∀ (op : BitVec 4) (a : Byte) (w : Word) (f : CanFields) (p : List Byte),
    (op ∉ [0x6#4, 0x7#4, 0x9#4, 0xA#4, 0xB#4, 0xE#4, 0xF#4] → ∃ i, decode (.command (commandWord op a) w f p) = .ok i) ∧
    (op ∈ [0x6#4, 0x7#4, 0x9#4, 0xA#4, 0xB#4, 0xE#4, 0xF#4] → ∀ (rest : List Input) (s : State),
      s.pending = .issue (commandWord op a) w f p :: rest →
      step s = .next { s with pending := rest, out := s.out ++ [.events [.opReserved op]] })

/-- 70_reset_and_hazards.md section 1 (D29): the `RESET` input clears the two items of state, whatever they were, and gives no event.
That it is an entry of the pending inputs, and leaves those after it, is the model's choice (log 14). -/
def Obligations.ResetInputClearsState : Prop :=
  ∀ (rest : List Input) (s : State), s.pending = .reset :: rest →
    step s = .next { s with pending := rest, csAcc := 0x00#8, rxq := [] }

/-- Rule R21 (D29): after reset the accumulator is zero and the queue is empty. -/
def Obligations.ResetValues : Prop :=
  State.reset.csAcc = 0x00#8 ∧ State.reset.rxq = [] ∧
  ∀ s : State, (applyReset s).csAcc = 0x00#8 ∧ (applyReset s).rxq = []

/-- Rules R9 and R168: every operation answers a next state in every state, and so does every step, whatever the environment has
issued: there is no fault, no refusal that stops a run and no stuck state. A reserved code is refused by its event alone (log 8), an
idle step and a reset answer too (logs 4, 14). -/
def Obligations.EveryOperationCompletes : Prop :=
  (∀ (i : Instr) (s : State), ∃ t, exec i s = .next t) ∧
  (∀ s : State, ∃ t, step s = .next t)

/-! ## Invariants and frames -/

/-- Rule R22: in every state reachable from reset, with whatever the environment issues (log 1), the accumulator is a byte, at most
256 bytes are buffered and the queue is quiescent. -/
def Obligations.ReachableStatesMeetInvariant : Prop :=
  ∀ s : State, Reachable s → s.csAcc.toNat ≤ 255 ∧ s.rxq.length ≤ 256 ∧ Quiescent s.rxq

/-- 10_state.md section 10: every step keeps the invariant, from every state that meets it. -/
def Obligations.StepKeepsInvariant : Prop :=
  ∀ s t : State, Inv s → step s = .next t → Inv t

/-- The reset state meets the invariant (that its layout is valid is a fact about the default of rule R47, log 3). -/
def Obligations.ResetMeetsInvariant : Prop := Inv State.reset

/-- 10_state.md section 2 and 20_memory.md sections 1 and 7: `CS_ACC` changes only by `CS.CLR` and `CS.ADD`, `rxq` only by `RX.PUSH`
and `RX.FLUSH`, every cell of it then reading as before, and the layout by nothing, a step included; what is pending is the
environment's (log 1). -/
def Obligations.UnitsKeepToTheirState : Prop :=
  (∀ (i : Instr) (s t : State), exec i s = .next t →
    (i ≠ .csClr → (∀ b, i ≠ .csAdd b) → t.csAcc = s.csAcc) ∧
    (i ≠ .rxFlush → (∀ b, i ≠ .rxPush b) → t.rxq = s.rxq ∧ ∀ k, Memory.read t.rxq k = Memory.read s.rxq k) ∧
    t.cidLayout = s.cidLayout ∧ t.pending = s.pending) ∧
  (∀ s t : State, step s = .next t → t.cidLayout = s.cidLayout)

/-- 20_memory.md section 7 (D32): instructions of different units commute. Either order answers, leaves the same accumulator and the
same queue, and each instruction gives the same results in both orders. -/
def Obligations.UnitsCommute : Prop :=
  ∀ (i j : Instr) (s : State), unitOf i ≠ unitOf j →
    ∃ ti tij tj tji oi oj,
      exec i s = .next ti ∧ exec j ti = .next tij ∧ exec j s = .next tj ∧ exec i tj = .next tji ∧
      tij.csAcc = tji.csAcc ∧ tij.rxq = tji.rxq ∧
      ti.out = s.out ++ oi ∧ tij.out = ti.out ++ oj ∧ tj.out = s.out ++ oj ∧ tji.out = tj.out ++ oi

/-- 30_encoding.md section 3: an operation gives its one result after all earlier ones, and `CS.CLR`, `CS.ADD` and `RX.FLUSH` give
none; nothing given earlier is lost or changed (the ordered list is the model's, log 2). -/
def Obligations.ResultsAreAppended : Prop :=
  ∀ (i : Instr) (s t : State), exec i s = .next t →
    ∃ outs, t.out = s.out ++ outs ∧
      ((i = .csClr ∨ (∃ b, i = .csAdd b) ∨ i = .rxFlush) → outs = []) ∧
      (i ≠ .csClr → (∀ b, i ≠ .csAdd b) → i ≠ .rxFlush → outs.length = 1)

/-- 60_exceptions.md section 1 (D26): each event has its own code of the table, and each of the parser's three reasons is reported
by the event of its name; and which operation gives which events. `RX.PUSH` gives codes 1 to 5, `TX.ENC` code 6, a dispatch outcome
code 1, and no other operation any. So a step gives a code from 1 to 5 only where it takes an `RX.PUSH` (the dispatcher takes no step of
its own, log 6), code 6 only where it takes a `TX.ENC`, and code 7 only where it takes a reserved code, which the event carries. -/
def Obligations.EventsOfOperations : Prop :=
  ((∀ (t plen sel : Byte) (p : List Byte) (known : Bool), (Event.frame t plen p known sel).code = 0x1#4) ∧
    Event.badLen.code = 0x2#4 ∧ Event.badChk.code = 0x3#4 ∧ Event.badTail.code = 0x4#4 ∧ Event.overflow.code = 0x5#4 ∧
    (∀ n : Nat, (Event.txTooLong n).code = 0x6#4) ∧ (∀ op : BitVec 4, (Event.opReserved op).code = 0x7#4)) ∧
  (reasonEvent .badLen = .badLen ∧ reasonEvent .badChk = .badChk ∧ reasonEvent .badTail = .badTail) ∧
  (∀ (i : Instr) (s t : State) (outs : List Output), exec i s = .next t → t.out = s.out ++ outs →
    ∀ e ∈ eventsOf outs,
      ((∃ b, i = .rxPush b) ∧ e.code ∈ [0x1#4, 0x2#4, 0x3#4, 0x4#4, 0x5#4]) ∨
      ((∃ ty p, i = .txEnc ty p ∧ e = .txTooLong p.length) ∧ e.code = 0x6#4) ∨
      (unitOf i = .dsp ∧ e.code = 0x1#4)) ∧
  (∀ (s t : State) (outs : List Output), step s = .next t → t.out = s.out ++ outs → ∀ e ∈ eventsOf outs,
    ∃ op a w f p rest, s.pending = .issue (commandWord op a) w f p :: rest ∧
      ((op = 0xC#4 ∧ e.code ∈ [0x1#4, 0x2#4, 0x3#4, 0x4#4, 0x5#4]) ∨ (op = 0x8#4 ∧ e = .txTooLong p.length) ∨
        (op ∈ reservedOps ∧ e = .opReserved op)))

/-- 20_memory.md section 5: the reading operations change no state and repeat their result; `CS.CLR` and `RX.FLUSH` are idempotent;
`CS.ADD` is idempotent exactly when its operand is zero. -/
def Obligations.RepeatedOperations : Prop :=
  (∀ (i : Instr) (s : State), ((i = .csGet ∨ ∃ e, i = .csVfy e) ∨ unitOf i = .cic ∨ unitOf i = .txe) →
    ∃ o, exec i s = .next { s with out := s.out ++ [o] } ∧ runInstrs [i, i] s = .next { s with out := s.out ++ [o, o] }) ∧
  (∀ (i : Instr) (s : State), i = .csClr ∨ i = .rxFlush → runInstrs [i, i] s = exec i s) ∧
  (∀ (b : Byte) (s : State), runInstrs [.csAdd b, .csAdd b] s = exec (.csAdd b) s ↔ b = 0x00#8)

/-! ## Encodings -/

/-- 30_encoding.md sections 3 and 6: decoding the encoding of a well-formed instruction gives it back, every operand at every value. -/
def Obligations.DecodeOfEncode : Prop :=
  ∀ i : Instr, i.wellFormed = true → decode (encode i) = .ok i

/-- 30_encoding.md section 6: a request decodes to an instruction whose row's mask and match select it; `SF.UNKNOWN` only when no
registered type's row does; and a frame value that the `SF.UNKNOWN` row does not select decodes to nothing. -/
def Obligations.DecodeFollowsTableRows : Prop :=
  (∀ (r : Request) (i : Instr), decode r = .ok i → i.row.selects r = true) ∧
  (∀ (h : BitVec 24) (p : List Byte) (len t : Byte) (p' : List Byte), decode (.frame h p) = .ok (.sfUnknown len t p') →
    ∀ c ∈ [0x01, 0x02, 0x03, 0x04, 0x06, 0x07, 0x0A, 0x0E], h.toNat &&& 0xFF00FF ≠ 0x5A0000 + c) ∧
  (∀ (h : BitVec 24) (p : List Byte), h.toNat &&& 0xFF0000 ≠ 0x5A0000 → decode (.frame h p) = .error (.noHead (headOf h))) ∧
  (∀ (h : BitVec 24) (p : List Byte), h.toNat &&& 0xFF0000 = 0x5A0000 → ∃ i, decode (.frame h p) = .ok i)

/-- 30_encoding.md sections 1.6 and 3: one word of each kind, written out, decodes to the instruction it stands for. -/
def Obligations.SampleWordsDecode : Prop :=
  decode (.command 0x000#12 0#32 .zero []) = .ok .csClr ∧
  decode (.command 0x15A#12 0#32 .zero []) = .ok (.csAdd 0x5A#8) ∧
  decode (.command 0x30B#12 0#32 .zero []) = .ok (.csVfy 0x0B#8) ∧
  decode (.command 0x500#12 0x0C603212#32 .zero []) = .ok (.cidUnpack 0x0C603212#32) ∧
  decode (.command 0x802#12 0#32 .zero []) = .ok (.txEnc 0x02#8 []) ∧
  decode (.command 0xCA5#12 0#32 .zero []) = .ok (.rxPush 0xA5#8) ∧
  decode (.command 0xD00#12 0#32 .zero []) = .ok .rxFlush ∧
  decode (.frame 0x5A0402#24 [0x64#8, 0x00#8]) = .ok (.sfSysStatus 0x04#8 [0x64#8, 0x00#8]) ∧
  decode (.frame 0x5A0305#24 [0xAA#8]) = .ok (.sfUnknown 0x03#8 0x05#8 [0xAA#8])
end

