-- ==== Sys2Proof/Laws/Decode.lean ====
section
/-! SUPPORT. The fields of a command word and of a frame header, read back from the words the encoder writes. -/

namespace Sys2Proof.Laws

/-- The operation code of a command word. -/
@[simp] theorem opOf_commandWord (op : BitVec 4) (a : Byte) : opOf (commandWord op a) = op := by
  simp only [opOf, commandWord]
  exact BitVec.extractLsb'_append_eq_left

/-- The byte operand of a command word. -/
@[simp] theorem argOf_commandWord (op : BitVec 4) (a : Byte) : argOf (commandWord op a) = a := by
  simp only [argOf, commandWord]
  exact BitVec.extractLsb'_append_eq_right

/-- A frame header as a number (rule R54). -/
theorem frameHeader_toNat (len t : Byte) : (frameHeader len t).toNat = 0x5A * 65536 + len.toNat * 256 + t.toNat := by
  have h1 := len.isLt
  have h2 := t.isLt
  simp only [frameHeader, Config.head, BitVec.toNat_append]
  rw [← Nat.shiftLeft_add_eq_or_of_lt (by omega), ← Nat.shiftLeft_add_eq_or_of_lt (by omega)]
  simp [Nat.shiftLeft_eq]
  omega

/-- Every command word is that of its operation code and byte operand. -/
theorem commandWord_opOf_argOf (cmd : BitVec 12) : commandWord (opOf cmd) (argOf cmd) = cmd := by
  apply BitVec.eq_of_toNat_eq
  have h := cmd.isLt
  simp only [commandWord, opOf, argOf, BitVec.toNat_append, BitVec.extractLsb'_toNat]
  rw [← Nat.shiftLeft_add_eq_or_of_lt (by omega)]
  simp [Nat.shiftRight_eq_div_pow, Nat.shiftLeft_eq]
  omega

/-- `byte0` of a frame header. -/
@[simp] theorem headOf_frameHeader (len t : Byte) : headOf (frameHeader len t) = Config.head := by
  apply BitVec.eq_of_toNat_eq
  have h1 := len.isLt
  have h2 := t.isLt
  simp [headOf, BitVec.extractLsb', frameHeader_toNat, Nat.shiftRight_eq_div_pow, Config.head]
  omega

/-- `byte1` of a frame header. -/
@[simp] theorem lenOf_frameHeader (len t : Byte) : lenOf (frameHeader len t) = len := by
  apply BitVec.eq_of_toNat_eq
  have h1 := len.isLt
  have h2 := t.isLt
  simp [lenOf, BitVec.extractLsb', frameHeader_toNat, Nat.shiftRight_eq_div_pow]
  omega

/-- `byte2` of a frame header. -/
@[simp] theorem typeOf_frameHeader (len t : Byte) : typeOf (frameHeader len t) = t := by
  apply BitVec.eq_of_toNat_eq
  have h1 := len.isLt
  have h2 := t.isLt
  simp [typeOf, BitVec.extractLsb', frameHeader_toNat]
  omega

end Sys2Proof.Laws
end

