-- ==== Sys2Proof/Laws/Memory.lean ====
section
/-! SUPPORT. The accesses to the receive queue: what each leaves, and that each keeps the length bound. -/

namespace Sys2Proof.Machine

theorem Memory.wf_iff (q : List Byte) : Memory.wf q = true ↔ q.length ≤ 256 := by
  exact decide_eq_true_iff

/-- Append keeps the bound where rule R27 lets it be made. -/
theorem Memory.wf_append (q : List Byte) (b : Byte) (h : q.length < Config.bufLen) : Memory.wf (Memory.append q b) = true := by
  simp only [Memory.wf, Memory.append, List.length_append, List.length_singleton, decide_eq_true_eq]
  omega

theorem Memory.wf_dropFront (q : List Byte) (k : Nat) (h : Memory.wf q = true) : Memory.wf (Memory.dropFront k q) = true := by
  simp only [Memory.wf, Memory.dropFront, List.length_drop, decide_eq_true_eq] at *
  omega

theorem Memory.wf_clear : Memory.wf Memory.clear = true := by simp [Memory.wf, Memory.clear]

theorem Memory.wf_reset : Memory.wf State.reset.rxq = true := Memory.wf_clear

/-- A read inside the queue gives the byte there; outside there is nothing to give (rule R38). -/
theorem Memory.read_isSome (q : List Byte) (i : Nat) : (Memory.read q i).isSome = true ↔ i < q.length := by
  simp [Memory.read]

/-- Append leaves every earlier cell alone and puts the byte after them. -/
theorem Memory.read_append (q : List Byte) (b : Byte) (i : Nat) :
    Memory.read (Memory.append q b) i = if i < q.length then Memory.read q i else if i = q.length then some b else none := by
  unfold Memory.read Memory.append
  split
  · rename_i h; exact List.getElem?_append_left h
  · split
    · rename_i _ h; subst h; simp
    · rw [List.getElem?_eq_none]; simp; omega

/-- Dropping `k` cells renumbers the rest. -/
theorem Memory.read_dropFront (q : List Byte) (k i : Nat) : Memory.read (Memory.dropFront k q) i = Memory.read q (k + i) := by
  simp [Memory.read, Memory.dropFront]

@[simp] theorem Memory.read_clear (i : Nat) : Memory.read Memory.clear i = none := by simp [Memory.read, Memory.clear]

/-- The view as cells lists each index of the queue once, in rising order, with the byte there. -/
theorem Memory.cells_length (q : List Byte) : (Memory.cells q).length = q.length := by simp [Memory.cells]

theorem Memory.cells_getElem? (q : List Byte) (i : Nat) :
    (Memory.cells q)[i]? = (Memory.read q i).map fun b => (i, b) := by
  unfold Memory.cells Memory.read
  by_cases h : i < q.length
  · simp [h]
  · simp [Nat.not_lt.mp h]

end Sys2Proof.Machine
end

