-- ==== Sys2Proof/Laws/Operands.lean ====
section
/-! SUPPORT. Truncation, placement and extraction of the CAN-id fields, as numbers and bit by bit. -/

namespace Sys2Proof.Machine

/-- Truncation as a number (rule R7). -/
@[simp] theorem trunc_toNat (n : Nat) (v : Word) : (trunc n v).toNat = v.toNat % 2 ^ n := by
  have h1 : v.toNat % 2 ^ n ≤ v.toNat := Nat.mod_le _ _
  have h2 := v.isLt
  simp only [trunc, BitVec.toNat_ofNat]
  exact Nat.mod_eq_of_lt (by omega)

/-- Truncation bit by bit. -/
@[simp] theorem trunc_getLsbD (n : Nat) (v : Word) (i : Nat) : (trunc n v).getLsbD i = (decide (i < n) && v.getLsbD i) := by
  rw [BitVec.getLsbD, trunc_toNat, Nat.testBit_mod_two_pow, BitVec.getLsbD]

/-- An extracted field as a number (rule R73). -/
theorem extract_toNat (l : Layout) (f : CanField) (w : Word) :
    (extract l f w).toNat = w.toNat / 2 ^ l.lo f % 2 ^ l.wd f := by
  simp [extract, Nat.shiftRight_eq_div_pow]

/-- An extracted field bit by bit. -/
theorem extract_getLsbD (l : Layout) (f : CanField) (w : Word) (i : Nat) :
    (extract l f w).getLsbD i = (decide (i < l.wd f) && w.getLsbD (l.lo f + i)) := by
  simp [extract]

/-- A placed operand bit by bit. -/
theorem place_getLsbD (l : Layout) (f : CanField) (v : Word) (i : Nat) :
    (place l f v).getLsbD i = (decide (i < 32) && (l.holds f i && v.getLsbD (i - l.lo f))) := by
  simp only [place, BitVec.getLsbD_shiftLeft, trunc_getLsbD, Layout.holds]
  by_cases h2 : l.lo f ≤ i
  · have h3 : (decide (i - l.lo f < l.wd f)) = decide (i < l.lo f + l.wd f) := decide_eq_decide.mpr (by omega)
    simp [h2, h3, Nat.not_lt.mpr h2]
  · simp [h2, Nat.not_le.mp h2]

/-- A field of an unpacked record is the extracted field. -/
theorem unpack_get (l : Layout) (f : CanField) (w : Word) : (unpack l w).get f = extract l f w := by
  cases f <;> rfl

/-- Two records with the same six values are the same record. -/
theorem CanFields.ext_get (v v' : CanFields) (h : ∀ f, v.get f = v'.get f) : v = v' := by
  have h1 := h .sourceId; have h2 := h .functionId; have h3 := h .ack
  have h4 := h .destMac; have h5 := h .srcMac; have h6 := h .reserved
  cases v; cases v'
  simp only [CanFields.get] at h1 h2 h3 h4 h5 h6
  simp [h1, h2, h3, h4, h5, h6]

/-- The packed word is the OR of the six placed operands (rule R72). -/
theorem pack_eq (l : Layout) (v : CanFields) : pack l v =
    place l .sourceId v.sourceId ||| place l .functionId v.functionId ||| place l .ack v.ack |||
    place l .destMac v.destMac ||| place l .srcMac v.srcMac ||| place l .reserved v.reserved := by
  simp [pack, CanField.all, CanFields.get]

/-- The packed word bit by bit. -/
theorem pack_getLsbD (l : Layout) (v : CanFields) (i : Nat) : (pack l v).getLsbD i =
    CanField.all.any fun f => (place l f (v.get f)).getLsbD i := by
  simp only [pack_eq, BitVec.getLsbD_or, CanField.all, List.any_cons, List.any_nil, CanFields.get, Bool.or_false, Bool.or_assoc]

/-- Every field is in the list of all fields. -/
theorem CanField.mem_all (f : CanField) : f ∈ CanField.all := by cases f <;> simp [CanField.all]

/-- What validity of a layout says, condition by condition (rule R46). -/
theorem Layout.valid_iff (l : Layout) : l.valid = true ↔
    (∀ f, 1 ≤ l.wd f) ∧
    (∀ f g, f ≠ g → l.lo f + l.wd f ≤ l.lo g ∨ l.lo g + l.wd g ≤ l.lo f) ∧
    (∀ f, l.lo f + l.wd f ≤ 32) ∧
    (∀ i, i < 32 → ∃ f, l.lo f ≤ i ∧ i < l.lo f + l.wd f) ∧
    l.wd .ack = 1 ∧ 7 ≤ l.wd .srcMac := by
  have all_iff : ∀ p : CanField → Bool, (CanField.all.all p = true ↔ ∀ f, p f = true) := fun p =>
    List.all_eq_true.trans ⟨fun h f => h f (CanField.mem_all f), fun h f _ => h f⟩
  have any_iff : ∀ p : CanField → Bool, (CanField.all.any p = true ↔ ∃ f, p f = true) := fun p =>
    List.any_eq_true.trans ⟨fun ⟨f, _, h⟩ => ⟨f, h⟩, fun ⟨f, h⟩ => ⟨f, CanField.mem_all f, h⟩⟩
  simp only [Layout.valid, Bool.and_eq_true, all_iff, any_iff, List.all_eq_true, List.mem_range, Bool.or_eq_true, decide_eq_true_eq,
    beq_iff_eq, Layout.apart, Layout.holds, Config.cidW]
  constructor
  · rintro ⟨⟨⟨⟨⟨h1, h2⟩, h3⟩, h4⟩, h5⟩, h6⟩
    exact ⟨h1, fun f g hne => (h2 f g).resolve_left hne, fun f => of_decide_eq_true (h3 f), h4, h5, h6⟩
  · rintro ⟨h1, h2, h3, h4, h5, h6⟩
    refine ⟨⟨⟨⟨⟨h1, fun f g => ?_⟩, fun f => decide_eq_true (h3 f)⟩, h4⟩, h5⟩, h6⟩
    by_cases hfg : f = g
    · exact .inl hfg
    · exact .inr (h2 f g hfg)

end Sys2Proof.Machine
end

