-- ==== Sys2Proof/Laws/Parser.lean ====
section
/-! SUPPORT. The parser, function by function: the scan for `HEAD`, one decode attempt in terms of the bytes of the queue, and the
loop's measure. -/

namespace Sys2Proof.Machine

@[simp] theorem checksum_nil : checksum [] = 0#8 := rfl

theorem checksum_append_singleton (bs : List Byte) (b : Byte) : checksum (bs ++ [b]) = checksum bs + b := by
  simp [checksum, List.foldl_append]

@[simp] theorem scanHead_nil : scanHead [] = [] := rfl

@[simp] theorem scanHead_head (q : List Byte) : scanHead (Config.head :: q) = Config.head :: q := by
  simp [scanHead]

/-- A byte that is not `HEAD` is dropped. -/
theorem scanHead_cons_of_ne (b : Byte) (q : List Byte) (h : b ≠ Config.head) : scanHead (b :: q) = scanHead q := by
  simp [scanHead, h]

/-- Bytes without a `HEAD` before anything are dropped (rule R97). -/
theorem scanHead_append_of_noHead (noise q : List Byte) (h : Config.head ∉ noise) : scanHead (noise ++ q) = scanHead q := by
  induction noise with
  | nil => rfl
  | cons b noise ih =>
    simp only [List.mem_cons, not_or] at h
    rw [List.cons_append, scanHead_cons_of_ne b _ (Ne.symm h.1), ih h.2]

/-- With no `HEAD` at all, every byte is dropped. -/
theorem scanHead_of_noHead (q : List Byte) (h : Config.head ∉ q) : scanHead q = [] := by
  have := scanHead_append_of_noHead q [] h
  simpa using this

/-- The whole of the scan: what is dropped holds no `HEAD`, and what is left is empty or begins with one. -/
theorem scanHead_cases (q : List Byte) :
    (Config.head ∉ q ∧ scanHead q = []) ∨
    ∃ noise body, q = noise ++ Config.head :: body ∧ Config.head ∉ noise ∧ scanHead q = Config.head :: body := by
  induction q with
  | nil => exact .inl ⟨by simp, rfl⟩
  | cons b q ih =>
    by_cases hb : b = Config.head
    · subst hb; exact .inr ⟨[], q, rfl, by simp, by simp⟩
    · rcases ih with ⟨h1, h2⟩ | ⟨noise, body, h1, h2, h3⟩
      · exact .inl ⟨by simp [h1, Ne.symm hb], by rw [scanHead_cons_of_ne b q hb, h2]⟩
      · exact .inr ⟨b :: noise, body, by simp [h1], by simp [h2, Ne.symm hb], by rw [scanHead_cons_of_ne b q hb, h3]⟩

theorem scanHead_length_le (q : List Byte) : (scanHead q).length ≤ q.length := by
  simpa [scanHead] using (List.dropWhile_sublist (l := q) (· != Config.head)).length_le

/-- `q[2..L]` of a candidate: the bytes from the third to the one before `CHK`. -/
theorem slice_two (h len : Byte) (body : List Byte) (n : Nat) (hn : 2 ≤ n) : slice (h :: len :: body) 2 n = body.take (n - 1) := by
  obtain ⟨k, rfl⟩ : ∃ k, n = k + 2 := ⟨n - 2, by omega⟩
  simp [slice]

/-- `q[3..L]` of a candidate: the payload. -/
theorem slice_three (h len t : Byte) (body : List Byte) (n : Nat) (hn : 2 ≤ n) :
    slice (h :: len :: t :: body) 3 n = body.take (n - 2) := by
  obtain ⟨k, rfl⟩ : ∃ k, n = k + 2 := ⟨n - 2, by omega⟩
  simp [slice]

/-- A decode attempt that finds no candidate waits. -/
theorem decode1_noHead (q : List Byte) (h : Config.head ∉ q) : decode1 q = (.needMoreData, []) := by
  simp [decode1, scanHead_of_noHead q h, decodeCandidate]


theorem getElem_ne_iff (q : List Byte) (i : Nat) (x : Byte) (h : i < q.length) : q[i]'h ≠ x ↔ q[i]? ≠ some x := by
  simp [List.getElem?_eq_getElem h]

/-- One decode attempt on a queue that begins with `HEAD` and holds a `LEN` byte, in the rule's order, with no index in it. -/
theorem decodeCandidate_cons (h len : Byte) (body : List Byte) :
    decodeCandidate (h :: len :: body) =
      if len.toNat < Config.minLen then (.invalid .badLen, len :: body)
      else if body.length < len.toNat then (.needMoreData, h :: len :: body)
      else if body[len.toNat - 1]? ≠ some (checksum (body.take (len.toNat - 1))) then (.invalid .badChk, len :: body)
      else if body.length < len.toNat + 1 then (.needMoreData, h :: len :: body)
      else if body[len.toNat]? ≠ some Config.tail then (.invalid .badTail, len :: body)
      else (.frame (body.headD 0#8) ((body.drop 1).take (len.toNat - 2)), body.drop (len.toNat + 1)) := by
  have hmin2 : Config.minLen = 2 := rfl
  unfold decodeCandidate
  rw [dif_neg (by simp)]
  simp only [List.getElem_cons_succ, List.getElem_cons_zero, Memory.dropFront, List.drop_one, List.tail_cons, List.length_cons]
  by_cases hmin : len.toNat < Config.minLen
  · rw [if_pos hmin, if_pos hmin]
  rw [if_neg hmin, if_neg hmin]
  obtain ⟨k, hk⟩ : ∃ k, len.toNat = k + 2 := ⟨len.toNat - 2, by omega⟩
  simp only [hk]
  by_cases hchk : body.length < k + 2
  · rw [dif_pos (by omega), if_pos hchk]
  rw [dif_neg (by omega), if_neg hchk]
  have hs : (checksum (slice (h :: len :: body) 2 (k + 2)) ≠ (len :: body)[k + 2]'(by simp; omega)) ↔
      body[k + 2 - 1]? ≠ some (checksum (body.take (k + 2 - 1))) := by
    rw [slice_two h len body (k + 2) (by omega), ne_comm, getElem_ne_iff]
    simp
  by_cases hsum : body[k + 2 - 1]? ≠ some (checksum (body.take (k + 2 - 1)))
  · rw [if_pos (hs.mpr hsum), if_pos hsum]
  rw [if_neg (fun x => hsum (hs.mp x)), if_neg hsum]
  by_cases htail : body.length < k + 2 + 1
  · rw [dif_pos (by omega), if_pos htail]
  rw [dif_neg (by omega), if_neg htail]
  have ht : (body[k + 2]'(by omega) ≠ Config.tail) ↔ body[k + 2]? ≠ some Config.tail := by
    rw [getElem_ne_iff]
  by_cases htl : body[k + 2]? ≠ some Config.tail
  · rw [if_pos (ht.mpr htl), if_pos htl]
  rw [if_neg (fun x => htl (ht.mp x)), if_neg htl]
  obtain ⟨t, rest, rfl⟩ : ∃ t rest, body = t :: rest := by
    cases body with
    | nil => simp at hchk
    | cons t rest => exact ⟨t, rest, rfl⟩
  rw [slice_three h len t rest (k + 2) (by omega)]
  simp


/-- `LEN` for a payload of `n` bytes, back as a number. -/
theorem lenByte_toNat (n : Nat) (h : n ≤ 253) : (BitVec.ofNat 8 (n + Config.lenOverhead)).toNat = n + 2 := by
  simp only [Config.lenOverhead, BitVec.toNat_ofNat]; omega

theorem encodeFrame_eq (t : Byte) (p : List Byte) :
    encodeFrame t p = Config.head :: BitVec.ofNat 8 (p.length + Config.lenOverhead) :: t :: (p ++ [checksum (t :: p), Config.tail]) := by
  simp [encodeFrame]

@[simp] theorem encodeFrame_length (t : Byte) (p : List Byte) : (encodeFrame t p).length = p.length + 5 := by
  simp [encodeFrame]

/-- A candidate: all that the steps after the scan can answer. -/
theorem decodeCandidate_cases (len : Byte) (body : List Byte) :
    (Quiescent (Config.head :: len :: body) ∧
      decodeCandidate (Config.head :: len :: body) = (.needMoreData, Config.head :: len :: body)) ∨
    (∃ r, decodeCandidate (Config.head :: len :: body) = (.invalid r, len :: body)) ∨
    (∃ t p rest, p.length ≤ 253 ∧ Config.head :: len :: body = encodeFrame t p ++ rest ∧
      decodeCandidate (Config.head :: len :: body) = (.frame t p, rest)) := by
  have hmin2 : Config.minLen = 2 := rfl
  rw [decodeCandidate_cons]
  by_cases hmin : len.toNat < Config.minLen
  · exact .inr (.inl ⟨.badLen, by rw [if_pos hmin]⟩)
  rw [if_neg hmin]
  by_cases hchk : body.length < len.toNat
  · exact .inl ⟨⟨.q2, len, body, rfl, by omega, by simp; omega⟩, by rw [if_pos hchk]⟩
  rw [if_neg hchk]
  by_cases hsum : body[len.toNat - 1]? ≠ some (checksum (body.take (len.toNat - 1)))
  · exact .inr (.inl ⟨.badChk, by rw [if_pos hsum]⟩)
  rw [if_neg hsum]
  have hsum := not_not.mp hsum
  by_cases htail : body.length < len.toNat + 1
  · refine .inl ⟨⟨.q3, len, body, rfl, by omega, by simp; omega, ?_⟩, by rw [if_pos htail]⟩
    rw [slice_two _ _ _ _ (by omega), ← hsum]
    obtain ⟨k, hk⟩ : ∃ k, len.toNat = k + 1 := ⟨len.toNat - 1, by omega⟩
    simp [hk]
  rw [if_neg htail]
  by_cases htl : body[len.toNat]? ≠ some Config.tail
  · exact .inr (.inl ⟨.badTail, by rw [if_pos htl]⟩)
  rw [if_neg htl]
  have htl := not_not.mp htl
  obtain ⟨k, hk⟩ : ∃ k, len.toNat = k + 2 := ⟨len.toNat - 2, by omega⟩
  rw [hk] at hchk hsum htail htl ⊢
  obtain ⟨t, rest, rfl⟩ : ∃ t rest, body = t :: rest := by
    cases body with
    | nil => simp at hchk
    | cons t rest => exact ⟨t, rest, rfl⟩
  refine .inr (.inr ⟨t, rest.take k, rest.drop (k + 2), ?_, ?_, by simp⟩)
  · have := len.isLt; simp; omega
  · have hlen : len = BitVec.ofNat 8 ((rest.take k).length + Config.lenOverhead) := by
      apply BitVec.eq_of_toNat_eq
      have := len.isLt
      simp only [List.length_cons] at hchk htail
      simp [Config.lenOverhead, hk]; omega
    simp only [List.length_cons] at hchk htail
    simp at hsum htl
    rw [encodeFrame_eq, ← hlen]
    simp only [List.cons_append, List.append_assoc, List.nil_append, List.cons.injEq, true_and]
    have e1 : rest.drop k = checksum (t :: rest.take k) :: Config.tail :: rest.drop (k + 2) := by
      rw [List.drop_eq_getElem_cons (by omega), List.drop_eq_getElem_cons (by omega)]
      rw [List.getElem?_eq_getElem (by omega)] at hsum htl
      simp only [Option.some.injEq] at hsum htl
      rw [hsum, htl]
    rw [← e1, List.take_append_drop]

/-- Everything one decode attempt can do: drop bytes that hold no `HEAD`, and then wait on a quiescent queue, or drop the head of a
failed candidate, or take exactly the bytes of one frame. -/
theorem decode1_cases (q : List Byte) : ∃ noise q0, q = noise ++ q0 ∧ Config.head ∉ noise ∧
    ((Quiescent q0 ∧ decode1 q = (.needMoreData, q0)) ∨
     (∃ r q', q0 = Config.head :: q' ∧ decode1 q = (.invalid r, q')) ∨
     (∃ t p q', p.length ≤ 253 ∧ q0 = encodeFrame t p ++ q' ∧ decode1 q = (.frame t p, q'))) := by
  rcases scanHead_cases q with ⟨h1, h2⟩ | ⟨noise, body, h1, h2, h3⟩
  · exact ⟨q, [], by simp, h1, .inl ⟨⟨.q0, rfl⟩, decode1_noHead q h1⟩⟩
  · refine ⟨noise, Config.head :: body, h1, h2, ?_⟩
    cases body with
    | nil => exact .inl ⟨⟨.q1, rfl⟩, by simp [decode1, h3, decodeCandidate]⟩
    | cons len body =>
      rcases decodeCandidate_cases len body with ⟨hq, hd⟩ | ⟨r, hd⟩ | ⟨t, p, rest, hp, he, hd⟩
      · exact .inl ⟨hq, by rw [decode1, h3, hd]⟩
      · exact .inr (.inl ⟨r, len :: body, rfl, by rw [decode1, h3, hd]⟩)
      · exact .inr (.inr ⟨t, p, rest, hp, he, by rw [decode1, h3, hd]⟩)

/-- An attempt that decides something removes a byte at least. -/
theorem decode1_length_lt (q q' : List Byte) (v : Verdict) (h : decode1 q = (v, q')) (hv : v ≠ .needMoreData) :
    q'.length < q.length := by
  obtain ⟨noise, q0, rfl, -, ⟨-, hd⟩ | ⟨r, q1, rfl, hd⟩ | ⟨t, p, q1, -, rfl, hd⟩⟩ := decode1_cases q <;>
    rw [hd] at h <;> obtain ⟨rfl, rfl⟩ := Prod.mk.inj h
  · exact absurd rfl hv
  · simp; omega
  · simp; omega

/-- An attempt never lengthens the queue. -/
theorem decode1_length_le (q : List Byte) : (decode1 q).2.length ≤ q.length := by
  obtain ⟨noise, q0, rfl, -, ⟨-, hd⟩ | ⟨r, q1, rfl, hd⟩ | ⟨t, p, q1, -, rfl, hd⟩⟩ := decode1_cases q <;>
    rw [hd] <;> simp <;> omega

end Sys2Proof.Machine
end

