-- ==== Sys2Proof/Laws/PerInstr.lean ====
section
/-! SUPPORT. Statements about every instruction as syntax, one lemma for each constructor. -/

namespace Sys2Proof.Laws

/-- The encoding of an instruction matches its row of spec/opcode_table.json, mask and match (30_encoding.md rule R54). -/
def EncodeMatchesRow.Statement (i : Instr) : Prop := i.row.selects (encode i) = true

/-- The bits of a header under the mask of a registered type: `LEN` is free. -/
theorem frameHeader_mask (len t : Byte) : frameHeader len t &&& 0xFF00FF#24 = 0x5A0000#24 ||| t.setWidth 24 := by
  ext i hi
  simp only [frameHeader, Config.head, BitVec.getElem_and, BitVec.getElem_or, BitVec.getElem_append, BitVec.getElem_setWidth]
  interval_cases i <;> simp

/-- The bits of a header under the mask of the unknown row: `LEN` and `TYPE` are free. -/
theorem frameHeader_mask_head (len t : Byte) : frameHeader len t &&& 0xFF0000#24 = 0x5A0000#24 := by
  ext i hi
  simp only [frameHeader, Config.head, BitVec.getElem_and, BitVec.getElem_append]
  interval_cases i <;> simp

/-- A header of a registered type is selected by that type's row. -/
theorem selects_known (name : String) (len t : Byte) (p : List Byte) (m : Nat)
    (hm : (0x5A0000#24 ||| t.setWidth 24).toNat = m) :
    TableRow.selects ⟨name, 0xFF00FF, m⟩ (.frame (frameHeader len t) p) = true := by
  have h := congrArg BitVec.toNat (frameHeader_mask len t)
  rw [BitVec.toNat_and, hm] at h
  simpa [TableRow.selects, Request.rowBits] using h

/-- Every header that begins with `HEAD` is selected by the unknown row. -/
theorem selects_unknown (name : String) (len t : Byte) (p : List Byte) :
    TableRow.selects ⟨name, 0xFF0000, 0x5A0000⟩ (.frame (frameHeader len t) p) = true := by
  have h := congrArg BitVec.toNat (frameHeader_mask_head len t)
  rw [BitVec.toNat_and] at h
  simpa [TableRow.selects, Request.rowBits] using h

/-- A command is selected by the row of its operation code. -/
theorem selects_op (name : String) (op : BitVec 4) (a : Byte) (w : Word) (f : CanFields) (p : List Byte) (m : Nat)
    (hm : op.toNat &&& 0xF = m) :
    TableRow.selects ⟨name, 0xF, m⟩ (.command (commandWord op a) w f p) = true := by
  simp [TableRow.selects, Request.rowBits, hm]

theorem EncodeMatchesRow.csClr : EncodeMatchesRow.Statement .csClr :=
  selects_op _ _ _ _ _ _ _ (by decide)

theorem EncodeMatchesRow.csAdd (b : Byte) : EncodeMatchesRow.Statement (.csAdd b) :=
  selects_op _ _ _ _ _ _ _ (by decide)

theorem EncodeMatchesRow.csGet : EncodeMatchesRow.Statement .csGet :=
  selects_op _ _ _ _ _ _ _ (by decide)

theorem EncodeMatchesRow.csVfy (e : Byte) : EncodeMatchesRow.Statement (.csVfy e) :=
  selects_op _ _ _ _ _ _ _ (by decide)

theorem EncodeMatchesRow.cidPack (v : CanFields) : EncodeMatchesRow.Statement (.cidPack v) :=
  selects_op _ _ _ _ _ _ _ (by decide)

theorem EncodeMatchesRow.cidUnpack (w : Word) : EncodeMatchesRow.Statement (.cidUnpack w) :=
  selects_op _ _ _ _ _ _ _ (by decide)

theorem EncodeMatchesRow.txEnc (t : Byte) (p : List Byte) : EncodeMatchesRow.Statement (.txEnc t p) :=
  selects_op _ _ _ _ _ _ _ (by decide)

theorem EncodeMatchesRow.rxPush (b : Byte) : EncodeMatchesRow.Statement (.rxPush b) :=
  selects_op _ _ _ _ _ _ _ (by decide)

theorem EncodeMatchesRow.rxFlush : EncodeMatchesRow.Statement .rxFlush :=
  selects_op _ _ _ _ _ _ _ (by decide)

theorem EncodeMatchesRow.sfLedsCtrl (len : Byte) (p : List Byte) : EncodeMatchesRow.Statement (.sfLedsCtrl len p) :=
  selects_known _ _ _ _ _ (by decide)

theorem EncodeMatchesRow.sfSysStatus (len : Byte) (p : List Byte) : EncodeMatchesRow.Statement (.sfSysStatus len p) :=
  selects_known _ _ _ _ _ (by decide)

theorem EncodeMatchesRow.sfBatStatus (len : Byte) (p : List Byte) : EncodeMatchesRow.Statement (.sfBatStatus len p) :=
  selects_known _ _ _ _ _ (by decide)

theorem EncodeMatchesRow.sfModuleQuery (len : Byte) (p : List Byte) : EncodeMatchesRow.Statement (.sfModuleQuery len p) :=
  selects_known _ _ _ _ _ (by decide)

theorem EncodeMatchesRow.sfModuleCtrl (len : Byte) (p : List Byte) : EncodeMatchesRow.Statement (.sfModuleCtrl len p) :=
  selects_known _ _ _ _ _ (by decide)

theorem EncodeMatchesRow.sfIrCtrl (len : Byte) (p : List Byte) : EncodeMatchesRow.Statement (.sfIrCtrl len p) :=
  selects_known _ _ _ _ _ (by decide)

theorem EncodeMatchesRow.sfCurrentQuery (len : Byte) (p : List Byte) : EncodeMatchesRow.Statement (.sfCurrentQuery len p) :=
  selects_known _ _ _ _ _ (by decide)

theorem EncodeMatchesRow.sfVersionQuery (len : Byte) (p : List Byte) : EncodeMatchesRow.Statement (.sfVersionQuery len p) :=
  selects_known _ _ _ _ _ (by decide)

theorem EncodeMatchesRow.sfUnknown (len t : Byte) (p : List Byte) : EncodeMatchesRow.Statement (.sfUnknown len t p) :=
  selects_unknown _ _ _ _

end Sys2Proof.Laws
end

