-- ==== Sys2Proof/Laws/State.lean ====
section
/-! SUPPORT. One lemma per field and update of the state, each true by definition, so that no proof unfolds a record update; and
the shared operations over the whole state. -/

namespace Sys2Proof.Machine

@[simp] theorem State.setAcc_csAcc (s : State) (v : Byte) : (s.setAcc v).csAcc = v := rfl
@[simp] theorem State.setAcc_rxq (s : State) (v : Byte) : (s.setAcc v).rxq = s.rxq := rfl
@[simp] theorem State.setAcc_cidLayout (s : State) (v : Byte) : (s.setAcc v).cidLayout = s.cidLayout := rfl
@[simp] theorem State.setAcc_pending (s : State) (v : Byte) : (s.setAcc v).pending = s.pending := rfl
@[simp] theorem State.setAcc_out (s : State) (v : Byte) : (s.setAcc v).out = s.out := rfl

@[simp] theorem State.setRxq_csAcc (s : State) (q : List Byte) : (s.setRxq q).csAcc = s.csAcc := rfl
@[simp] theorem State.setRxq_rxq (s : State) (q : List Byte) : (s.setRxq q).rxq = q := rfl
@[simp] theorem State.setRxq_cidLayout (s : State) (q : List Byte) : (s.setRxq q).cidLayout = s.cidLayout := rfl
@[simp] theorem State.setRxq_pending (s : State) (q : List Byte) : (s.setRxq q).pending = s.pending := rfl
@[simp] theorem State.setRxq_out (s : State) (q : List Byte) : (s.setRxq q).out = s.out := rfl

@[simp] theorem State.give_csAcc (s : State) (o : Output) : (s.give o).csAcc = s.csAcc := rfl
@[simp] theorem State.give_rxq (s : State) (o : Output) : (s.give o).rxq = s.rxq := rfl
@[simp] theorem State.give_cidLayout (s : State) (o : Output) : (s.give o).cidLayout = s.cidLayout := rfl
@[simp] theorem State.give_pending (s : State) (o : Output) : (s.give o).pending = s.pending := rfl
@[simp] theorem State.give_out (s : State) (o : Output) : (s.give o).out = s.out ++ [o] := rfl

@[simp] theorem State.setPending_csAcc (s : State) (l : List Input) : (s.setPending l).csAcc = s.csAcc := rfl
@[simp] theorem State.setPending_rxq (s : State) (l : List Input) : (s.setPending l).rxq = s.rxq := rfl
@[simp] theorem State.setPending_cidLayout (s : State) (l : List Input) : (s.setPending l).cidLayout = s.cidLayout := rfl
@[simp] theorem State.setPending_pending (s : State) (l : List Input) : (s.setPending l).pending = l := rfl
@[simp] theorem State.setPending_out (s : State) (l : List Input) : (s.setPending l).out = s.out := rfl

@[simp] theorem State.reset_csAcc : State.reset.csAcc = 0x00#8 := rfl
@[simp] theorem State.reset_rxq : State.reset.rxq = [] := rfl
@[simp] theorem State.reset_cidLayout : State.reset.cidLayout = Config.cidLayout := rfl
@[simp] theorem State.reset_pending : State.reset.pending = [] := rfl
@[simp] theorem State.reset_out : State.reset.out = [] := rfl

@[ext] theorem State.ext_fields (s t : State) (h1 : s.csAcc = t.csAcc) (h2 : s.rxq = t.rxq) (h3 : s.cidLayout = t.cidLayout)
    (h4 : s.pending = t.pending) (h5 : s.out = t.out) : s = t := by
  cases s; cases t; simp_all

/-- All that `RESET` does: the two items of state take their reset values. -/
theorem applyReset_eq (s : State) : applyReset s = { s with csAcc := 0x00#8, rxq := [] } := rfl

/-- All that a reserved code does: one event. -/
theorem raiseReserved_eq (op : BitVec 4) (s : State) :
    raiseReserved op s = { s with out := s.out ++ [.events [.opReserved op]] } := rfl

/-- Everything the taking of an input can come to. -/
theorem fetch_cases (s : State) :
    (s.pending = [] ∧ fetch s = .idle) ∨
    (∃ rest, s.pending = .reset :: rest ∧ fetch s = .reset (s.setPending rest)) ∨
    (∃ cmd w f p rest i, s.pending = .issue cmd w f p :: rest ∧ decodeCommand cmd w f p = .ok i ∧
      fetch s = .run i (s.setPending rest)) ∨
    (∃ cmd w f p rest op, s.pending = .issue cmd w f p :: rest ∧ decodeCommand cmd w f p = .error op ∧
      fetch s = .reserved op (s.setPending rest)) := by
  rcases hp : s.pending with _ | ⟨x, rest⟩
  · exact .inl ⟨rfl, by simp [fetch, hp]⟩
  · cases x with
    | reset => exact .inr (.inl ⟨rest, rfl, by simp [fetch, hp]⟩)
    | issue cmd w f p =>
      rcases hd : decodeCommand cmd w f p with op | i
      · exact .inr (.inr (.inr ⟨cmd, w, f, p, rest, op, rfl, hd, by simp [fetch, hp, hd]⟩))
      · exact .inr (.inr (.inl ⟨cmd, w, f, p, rest, i, rfl, hd, by simp [fetch, hp, hd]⟩))

end Sys2Proof.Machine
end

