-- ==== Sys2Proof/Laws/Step.lean ====
section
/-! SUPPORT. What a step can do, said once, and what each shared operation over the state leaves. -/

namespace Sys2Proof.Machine

/-- Everything a step that answers a next state can have done: wait, reset, run the decoded instruction, or answer a reserved code. -/
theorem step_cases (s t : State) (h : step s = .next t) :
    (s.pending = [] ∧ t = s) ∨
    (∃ rest, s.pending = .reset :: rest ∧ t = applyReset (s.setPending rest)) ∨
    (∃ cmd w f p rest i, s.pending = .issue cmd w f p :: rest ∧ decodeCommand cmd w f p = .ok i ∧
      exec i (s.setPending rest) = .next t) ∨
    (∃ cmd w f p rest op, s.pending = .issue cmd w f p :: rest ∧ decodeCommand cmd w f p = .error op ∧
      t = raiseReserved op (s.setPending rest)) := by
  unfold step at h
  rcases fetch_cases s with ⟨hp, hf⟩ | ⟨rest, hp, hf⟩ | ⟨cmd, w, f, p, rest, i, hp, hd, hf⟩ |
    ⟨cmd, w, f, p, rest, op, hp, hd, hf⟩ <;>
    rw [hf] at h
  · exact .inl ⟨hp, by simpa using h.symm⟩
  · exact .inr (.inl ⟨rest, hp, by simpa using h.symm⟩)
  · exact .inr (.inr (.inl ⟨cmd, w, f, p, rest, i, hp, hd, h⟩))
  · exact .inr (.inr (.inr ⟨cmd, w, f, p, rest, op, hp, hd, by simpa using h.symm⟩))

/-- All that delivering a frame does: one event after everything given before. -/
theorem deliver_eq (t : Byte) (p : List Byte) (known : Bool) (sel : Byte) (s : State) :
    deliver t p known sel s =
      .next { s with out := s.out ++ [.events [.frame t (BitVec.ofNat 8 p.length) p known sel]] } := rfl

/-- The two things the encoder can give. -/
theorem txResult_cases (t : Byte) (p : List Byte) :
    (p.length ≤ 251 ∧ txResult t p = .txo (encodeFrame t p)) ∨
    (251 < p.length ∧ txResult t p = .events [.txTooLong p.length]) := by
  have h : Config.maxPayload = 251 := rfl
  by_cases hp : p.length ≤ 251
  · exact .inl ⟨hp, if_neg (by omega)⟩
  · exact .inr ⟨by omega, if_pos (by omega)⟩

/-- The two things a push can do. -/
theorem pushByte_cases (q : List Byte) (b : Byte) :
    (256 ≤ q.length ∧ pushByte q b = ([.overflow], [])) ∨
    (q.length < 256 ∧ pushByte q b = drain (q.length + 2) (q ++ [b])) := by
  have h : Config.bufLen = 256 := rfl
  by_cases hq : 256 ≤ q.length
  · exact .inl ⟨hq, if_pos (by omega)⟩
  · exact .inr ⟨by omega, if_neg (by omega)⟩

@[simp] theorem runInstrs_nil (s : State) : runInstrs [] s = .next s := rfl

/-- A run goes on after an instruction that answers a next state. -/
theorem runInstrs_cons (i : Instr) (is : List Instr) (s t : State) (h : exec i s = .next t) :
    runInstrs (i :: is) s = runInstrs is t := by
  simp [runInstrs, h]

@[simp] theorem runSteps_zero (s : State) : runSteps 0 s = .next s := rfl

/-- A run of steps goes on after a step that answers a next state. -/
theorem runSteps_succ (k : Nat) (s t : State) (h : step s = .next t) : runSteps (k + 1) s = runSteps k t := by
  simp [runSteps, h]

@[simp] theorem eventsOf_nil : eventsOf [] = [] := rfl

@[simp] theorem eventsOf_append (a b : List Output) : eventsOf (a ++ b) = eventsOf a ++ eventsOf b := by
  simp [eventsOf]

@[simp] theorem eventsOf_events (evs : List Event) : eventsOf [.events evs] = evs := by
  simp [eventsOf]

end Sys2Proof.Machine
end

