-- ==== Sys2Proof/Tests/Slice0.lean ====
section
/-! SUPPORT. Tests. Words are written out from 30_encoding.md rules R50, R51, R54; expected results are vectors of
95_test_vectors.md, named in the docstrings; the last part shows, for each statement with hypotheses, values that meet them. -/

namespace Sys2Proof.Tests

open Sys2Proof Sys2Proof.Machine

/-- A state with a given accumulator and queue. -/
def st (acc : Byte) (q : List Byte) : State := (State.reset.setAcc acc).setRxq q

/-- A command with its wide operands zero, decoded or issued. -/
def cmd (c : BitVec 12) : Request := .command c 0#32 .zero []
def iss (c : BitVec 12) : Input := .issue c 0#32 .zero []

/-- A state with one such command issued. -/
def issued (acc : Byte) (q : List Byte) (c : BitVec 12) : State := (st acc q).setPending [iss c]

/-- The fields of vector CID1, and of CID4, which are each one bit too wide. -/
def cid1 : CanFields := ⟨0x12#32, 0x2#32, 1#32, 0x01#32, 0x63#32, 0#32⟩
def cid4 : CanFields := ⟨0x112#32, 0x12#32, 3#32, 0x101#32, 0x163#32, 8#32⟩

/-- Every field at its maximum (CID3). -/
def cid3 : CanFields := ⟨0xFF#32, 0xF#32, 1#32, 0xFF#32, 0xFF#32, 7#32⟩

/-- A valid layout other than the default: `src_mac` as narrow as rule R46 allows, at the bottom. -/
def otherLayout : Layout where
  sourceId := ⟨7, 9⟩
  functionId := ⟨16, 4⟩
  ack := ⟨20, 1⟩
  destMac := ⟨21, 8⟩
  srcMac := ⟨0, 7⟩
  reserved := ⟨29, 3⟩

/-! ## Well-formedness: each check refuses an ill-formed term -/

theorem test_wf_rejects_len_not_payload : (Instr.sfLedsCtrl 0x03#8 []).wellFormed = false := by decide
theorem test_wf_rejects_len_below_two : (Instr.sfSysStatus 0x01#8 []).wellFormed = false := by decide
theorem test_wf_rejects_long_payload : (Instr.sfBatStatus 0xFE#8 (List.replicate 252 0#8)).wellFormed = false := by decide +kernel
theorem test_wf_rejects_registered_unknown : (Instr.sfUnknown 0x02#8 0x0E#8 []).wellFormed = false := by decide
theorem test_wf_rejects_unknown_len : (Instr.sfUnknown 0x02#8 0x05#8 [0xAA#8]).wellFormed = false := by decide
theorem test_wf_accepts_longest : (Instr.sfUnknown 0xFD#8 0x05#8 (List.replicate 251 0#8)).wellFormed = true := by decide +kernel

/-! ## Decoding: a word of every instruction, written out -/

theorem test_decode_csClr : decode (cmd 0b0000_00000000#12) = .ok .csClr := by decide
theorem test_decode_csClr_ignores_operand : decode (cmd 0b0000_11111111#12) = .ok .csClr := by decide
theorem test_decode_csAdd : decode (cmd 0b0001_01011010#12) = .ok (.csAdd 0x5A#8) := by decide
theorem test_decode_csGet : decode (cmd 0b0010_00000000#12) = .ok .csGet := by decide
theorem test_decode_csVfy : decode (cmd 0b0011_00001011#12) = .ok (.csVfy 0x0B#8) := by decide
theorem test_decode_cidPack : decode (.command 0b0100_00000000#12 0#32 cid1 []) = .ok (.cidPack cid1) := by decide
theorem test_decode_cidUnpack :
    decode (.command 0b0101_00000000#12 0x0C603212#32 .zero []) = .ok (.cidUnpack 0x0C603212#32) := by decide
theorem test_decode_txEnc : decode (.command 0b1000_00000010#12 0#32 .zero [0x64#8]) = .ok (.txEnc 0x02#8 [0x64#8]) := by decide
theorem test_decode_rxPush : decode (cmd 0b1100_10100101#12) = .ok (.rxPush 0xA5#8) := by decide
theorem test_decode_rxFlush : decode (cmd 0b1101_00000000#12) = .ok .rxFlush := by decide
theorem test_decode_sfLedsCtrl :
    decode (.frame 0b01011010_00000111_00000001#24 [1#8, 2#8, 3#8, 4#8, 5#8]) = .ok (.sfLedsCtrl 0x07#8 [1#8, 2#8, 3#8, 4#8, 5#8]) := by decide
theorem test_decode_sfSysStatus : decode (.frame 0b01011010_00000010_00000010#24 []) = .ok (.sfSysStatus 0x02#8 []) := by decide
theorem test_decode_sfBatStatus : decode (.frame 0b01011010_00000010_00000011#24 []) = .ok (.sfBatStatus 0x02#8 []) := by decide
theorem test_decode_sfModuleQuery : decode (.frame 0b01011010_00000010_00000100#24 []) = .ok (.sfModuleQuery 0x02#8 []) := by decide
theorem test_decode_sfModuleCtrl : decode (.frame 0b01011010_00000010_00000110#24 []) = .ok (.sfModuleCtrl 0x02#8 []) := by decide
theorem test_decode_sfIrCtrl : decode (.frame 0b01011010_00000010_00000111#24 []) = .ok (.sfIrCtrl 0x02#8 []) := by decide
theorem test_decode_sfCurrentQuery : decode (.frame 0b01011010_00000010_00001010#24 []) = .ok (.sfCurrentQuery 0x02#8 []) := by decide
theorem test_decode_sfVersionQuery : decode (.frame 0b01011010_00000010_00001110#24 []) = .ok (.sfVersionQuery 0x02#8 []) := by decide
theorem test_decode_sfUnknown :
    decode (.frame 0b01011010_00000011_00000101#24 [0xAA#8]) = .ok (.sfUnknown 0x03#8 0x05#8 [0xAA#8]) := by decide
theorem test_decode_reserved_op : decode (cmd 0b0110_00000000#12) = .error (.reservedOp 0x6#4) := by decide
theorem test_decode_no_head : decode (.frame 0xA50202#24 []) = .error (.noHead 0xA5#8) := by decide
theorem test_table_word_op : decodeTableWord 8 0x1 = some (.csAdd 0x00#8) := by decide
theorem test_table_word_sf : decodeTableWord 24 0x5A0305 = some (.sfUnknown 0x03#8 0x05#8 [0x00#8]) := by decide

/-! ## One step of each instruction -/

/-- CS23. -/
theorem test_csClr : step (issued 0x11#8 [0x5A#8] 0x000#12) = .next (st 0x00#8 [0x5A#8]) := by rfl
/-- CS20: `F0 + 20` wraps to `10`. -/
theorem test_csAdd_wraps : step (issued 0xF0#8 [] 0x120#12) = .next (st 0x10#8 []) := by rfl
/-- CS21: reading does not clear. -/
theorem test_csGet : step (issued 0x11#8 [] 0x200#12) = .next ((st 0x11#8 []).give (.r8 0x11#8)) := by rfl
/-- CS22. -/
theorem test_csVfy_match : step (issued 0x11#8 [] 0x311#12) = .next ((st 0x11#8 []).give (.r1 true)) := by rfl
theorem test_csVfy_mismatch : step (issued 0x11#8 [] 0x310#12) = .next ((st 0x11#8 []).give (.r1 false)) := by rfl
/-- CS9, CS11. -/
theorem test_checksum_cs9 : checksum [0x12#8, 0x34#8, 0x56#8, 0x78#8] = 0x14#8 := by decide
theorem test_checksum_cs11 : checksum [0x11#8, 0x1F#8] = 0x30#8 := by decide

/-- CID1, CID4. -/
theorem test_cidPack_cid1 : exec (.cidPack cid1) (st 0#8 []) = .next ((st 0#8 []).give (.rw 0x0C603212#32)) := by rfl
theorem test_cidPack_cid4 : exec (.cidPack cid4) (st 0#8 []) = .next ((st 0#8 []).give (.rw 0x0C603212#32)) := by rfl
/-- CIDU9: an arbitrary word; its source address F5 is outside the range, `us_unit` is computed all the same. -/
theorem test_cidUnpack_cidu9 : exec (.cidUnpack 0xDEADBEEF#32) (st 0#8 []) =
    .next ((st 0#8 []).give (.unpacked ⟨⟨0xEF#32, 0xE#32, 1#32, 0x6D#32, 0xF5#32, 6#32⟩, false, false, 5#4⟩)) := by rfl
/-- CIDU7: the highest ultrasonic address. -/
theorem test_cidUnpack_cidu7 : exec (.cidUnpack 0x0DE01201#32) (st 0#8 []) =
    .next ((st 0#8 []).give (.unpacked ⟨⟨0x01#32, 0x2#32, 1#32, 0x00#32, 0x6F#32, 0#32⟩, false, true, 0xF#4⟩)) := by rfl

/-- TX5: the checksum wraps. -/
theorem test_txEnc_tx5 : exec (.txEnc 0x0A#8 [0xFF#8, 0xFF#8]) (st 0#8 []) =
    .next ((st 0#8 []).give (.txo [0x5A#8, 0x04#8, 0x0A#8, 0xFF#8, 0xFF#8, 0x08#8, 0xA5#8])) := by rfl
/-- TX12: one byte over `MAX_PAYLOAD`. -/
theorem test_txEnc_tx12 : txResult 0x01#8 (List.replicate 252 0#8) = .events [.txTooLong 252] := by decide +kernel

/-- RX17c in small: a failed candidate and, in the same push, the good frame found in the rescan (vector RX19b). -/
theorem test_rxPush_rx19b : exec (.rxPush 0xA5#8) (st 0#8 [0x5A#8, 0x07#8, 0x01#8, 0x01#8, 0x5A#8, 0x02#8, 0x02#8, 0x02#8]) =
    .next ((st 0#8 []).give (.events [.badChk, .frame 0x02#8 0#8 [] true 0x02#8])) := by rfl
/-- RX22: a wrong tail that is itself a head stays. -/
theorem test_rxPush_rx22 : exec (.rxPush 0x5A#8) (st 0#8 [0x5A#8, 0x02#8, 0x02#8, 0x02#8]) =
    .next ((st 0#8 [0x5A#8]).give (.events [.badTail])) := by rfl
/-- RX6: `LEN = 0`. -/
theorem test_parse_rx6 : pushByte [0x5A#8] 0x00#8 = ([.badLen], []) := by decide
/-- RX19: the flush abandons the partial frame. -/
theorem test_rxFlush : step (issued 0x37#8 [0x5A#8, 0x07#8, 0x01#8, 0x01#8] 0xD00#12) = .next (st 0x37#8 []) := by rfl

/-- DSP2 to DSP14: the push of the tail of `5A 02 t t A5`. -/
theorem test_sfLedsCtrl : step (issued 0#8 [0x5A#8, 0x02#8, 0x01#8, 0x01#8] 0xCA5#12) =
    .next ((st 0#8 []).give (.events [.frame 0x01#8 0#8 [] true 0x01#8])) := by rfl
theorem test_sfSysStatus : step (issued 0#8 [0x5A#8, 0x02#8, 0x02#8, 0x02#8] 0xCA5#12) =
    .next ((st 0#8 []).give (.events [.frame 0x02#8 0#8 [] true 0x02#8])) := by rfl
theorem test_sfBatStatus : step (issued 0#8 [0x5A#8, 0x02#8, 0x03#8, 0x03#8] 0xCA5#12) =
    .next ((st 0#8 []).give (.events [.frame 0x03#8 0#8 [] true 0x04#8])) := by rfl
theorem test_sfModuleQuery : step (issued 0#8 [0x5A#8, 0x02#8, 0x04#8, 0x04#8] 0xCA5#12) =
    .next ((st 0#8 []).give (.events [.frame 0x04#8 0#8 [] true 0x08#8])) := by rfl
theorem test_sfModuleCtrl : step (issued 0#8 [0x5A#8, 0x02#8, 0x06#8, 0x06#8] 0xCA5#12) =
    .next ((st 0#8 []).give (.events [.frame 0x06#8 0#8 [] true 0x10#8])) := by rfl
theorem test_sfIrCtrl : step (issued 0#8 [0x5A#8, 0x02#8, 0x07#8, 0x07#8] 0xCA5#12) =
    .next ((st 0#8 []).give (.events [.frame 0x07#8 0#8 [] true 0x20#8])) := by rfl
theorem test_sfCurrentQuery : step (issued 0#8 [0x5A#8, 0x02#8, 0x0A#8, 0x0A#8] 0xCA5#12) =
    .next ((st 0#8 []).give (.events [.frame 0x0A#8 0#8 [] true 0x40#8])) := by rfl
theorem test_sfVersionQuery : step (issued 0#8 [0x5A#8, 0x02#8, 0x0E#8, 0x0E#8] 0xCA5#12) =
    .next ((st 0#8 []).give (.events [.frame 0x0E#8 0#8 [] true 0x80#8])) := by rfl
/-- DSP17: a type equal to `HEAD`. -/
theorem test_sfUnknown : step (issued 0#8 [0x5A#8, 0x02#8, 0x5A#8, 0x5A#8] 0xCA5#12) =
    .next ((st 0#8 []).give (.events [.frame 0x5A#8 0#8 [] false 0x00#8])) := by rfl

/-- OPR1. -/
theorem test_reserved_op : step (issued 0x37#8 [0x5A#8, 0x07#8, 0x01#8] 0x600#12) =
    .next ((st 0x37#8 [0x5A#8, 0x07#8, 0x01#8]).give (.events [.opReserved 0x6#4])) := by rfl
/-- RST1. -/
theorem test_reset_input : step ((st 0x37#8 [0x5A#8, 0x07#8, 0x01#8]).setPending [.reset]) = .next State.reset := by rfl
/-- A table word runs as the first instruction after reset. -/
theorem test_fetch_word : step (State.reset.withFetchWord 8 0x2) = .next (State.reset.give (.r8 0x00#8)) := by rfl
/-- A dispatch outcome's word runs inside the push of its tail (TX6 with payload 00). -/
theorem test_fetch_word_sf : step (State.reset.withFetchWord 24 0x5A0305) =
    .next (State.reset.give (.events [.frame 0x05#8 1#8 [0x00#8] false 0x00#8])) := by rfl
/-- The queue as cells of the index space (10_state.md rule R19). -/
theorem test_cells : Memory.cells [0x5A#8, 0x07#8] = [(0, 0x5A#8), (1, 0x07#8)] := by decide

/-! ## Values that meet the hypotheses of the statements -/

theorem wit_ChecksumArithmeticLaws : [0x12#8, 0x34#8].Perm [0x34#8, 0x12#8] := by decide

theorem wit_ChecksumDetection :
    (0x78#8 : Byte) ≠ 0x79#8 ∧ [0x12#8, 0x34#8].Perm [0x34#8, 0x12#8] ∧
    ([0x10#8, 0x20#8].map BitVec.toNat).sum % 256 = ([0x11#8, 0x1F#8].map BitVec.toNat).sum % 256 ∧
    ([0xFF#8, 0x01#8].map BitVec.toNat).sum % 256 = (([] : List Byte).map BitVec.toNat).sum % 256 := by decide

theorem wit_StreamingLaw : ∀ i ∈ [Instr.csAdd 0x5A#8, .rxPush 0x5A#8, .txEnc 0x02#8 [], .csAdd 0xA5#8],
    unitOf i = .csu → ∃ b, i = .csAdd b := by
  intro i hi h
  simp only [List.mem_cons, List.not_mem_nil, or_false] at hi
  rcases hi with rfl | rfl | rfl | rfl
  · exact ⟨_, rfl⟩
  · exact absurd h (by decide)
  · exact absurd h (by decide)
  · exact ⟨_, rfl⟩

theorem wit_PackPlacesFields :
    Config.cidLayout.valid = true ∧ 2 < Config.cidLayout.wd .reserved ∧ Config.cidLayout.lo .reserved + 2 = 31 ∧
    otherLayout.valid = true ∧ 0 < otherLayout.wd .srcMac ∧ otherLayout.lo .srcMac = 0 ∧ 6 < otherLayout.wd .srcMac := by decide

theorem wit_PackReturnsContainer : (st 0#8 []).cidLayout.valid = true ∧
    (∀ f, (cid3.get f).toNat = 2 ^ (st 0#8 []).cidLayout.wd f - 1) ∧
    (∀ f, (cid1.get f).toNat % 2 ^ (st 0#8 []).cidLayout.wd f = (cid4.get f).toNat % 2 ^ (st 0#8 []).cidLayout.wd f) := by
  refine ⟨by decide, fun f => ?_, fun f => ?_⟩ <;> cases f <;> rfl

/-- CIDU8, CIDU7, CIDU5, CIDU6: both ends of the address range and the addresses next to them. -/
theorem wit_NullIdAndAddressFilter :
    (unpackResults Config.cidLayout 0x0C001201#32).usHit = true ∧ (unpackResults Config.cidLayout 0x0DE01201#32).usHit = true ∧
    (unpackResults Config.cidLayout 0x0BE01201#32).fields.srcMac = 0x5F#32 ∧
    (unpackResults Config.cidLayout 0x0E001201#32).fields.srcMac = 0x70#32 := by decide

theorem wit_ContainerRoundTrips : Config.cidLayout.valid = true ∧ cid3.inRange Config.cidLayout = true ∧
    CanFields.zero.inRange Config.cidLayout = true ∧ otherLayout.valid = true ∧ cid1.inRange otherLayout = true := by decide

theorem wit_MasksTileContainer : otherLayout.valid = true ∧ Config.cidLayout.valid = true ∧ CanField.sourceId ≠ .reserved := by decide

theorem wit_EncodeReturnsFrame : (List.replicate 253 0#8).length ≤ 253 ∧ (List.replicate 251 0#8).length ≤ 251 ∧
    ([] : List Byte).length ≤ 251 ∧ 251 < (List.replicate 252 0#8).length := by decide +kernel

theorem wit_EncodeInjective : (List.replicate 253 0xFF#8).length ≤ 253 ∧ ([] : List Byte).length ≤ 253 ∧
    encodeFrame 0x02#8 (List.replicate 253 0xFF#8) = encodeFrame 0x02#8 (List.replicate 253 0xFF#8) := ⟨by decide +kernel, by decide +kernel, rfl⟩

theorem wit_FrameRoundTrip : (List.replicate 251 0x5A#8).length ≤ 251 ∧ ([] : List Byte).length ≤ 251 ∧ (st 0#8 []).rxq = [] := by decide +kernel

/-- For each clause, the least and the greatest `LEN` that it allows. -/
theorem wit_DecodeAttemptVerdicts : 0x5A#8 ∉ ([] : List Byte) ∧ 0x5A#8 ∉ [0x00#8, 0x11#8, 0xA5#8, 0xFF#8] ∧
    (0x00#8).toNat < 2 ∧ (0x01#8).toNat < 2 ∧
    (2 ≤ (0x02#8).toNat ∧ [0x02#8].length < (0x02#8).toNat) ∧
    (2 ≤ (0xFF#8).toNat ∧ (List.replicate 254 0#8).length < (0xFF#8).toNat) ∧
    ([0x02#8].length + 1 = (0x02#8).toNat ∧ checksum [0x02#8] ≠ 0x03#8 ∧ checksum [0x02#8] = 0x02#8) ∧
    ((List.replicate 254 0#8).length + 1 = (0xFF#8).toNat ∧ checksum (List.replicate 254 0#8) ≠ 0x01#8 ∧
      checksum (List.replicate 254 0#8) = 0x00#8) ∧
    (0xA6#8 : Byte) ≠ 0xA5#8 ∧ List.replicate 254 0#8 = 0#8 :: List.replicate 253 0#8 := by decide +kernel

/-- A full queue and one with room for one byte. -/
theorem wit_PushRunsDecodeLoop : (st 0#8 []).rxq.length < 256 ∧ (st 0#8 (List.replicate 255 0#8)).rxq.length < 256 ∧
    (st 0#8 (List.replicate 256 0#8)).rxq.length = 256 := by decide +kernel

theorem wit_DecodeLoopEnds : decode1 [0x5A#8, 0x00#8] = (.invalid .badLen, [0x00#8]) ∧
    decode1 [0x5A#8, 0x02#8, 0x02#8, 0x02#8, 0xA5#8] = (.frame 0x02#8 [], []) ∧
    (st 0#8 (List.replicate 256 0#8)).rxq.length ≤ 256 := by decide +kernel

theorem wit_QuiescentForms_q0 : InForm .q0 [] := rfl
theorem wit_QuiescentForms_q1 : InForm .q1 [0x5A#8] := rfl
theorem wit_QuiescentForms_q2 : InForm .q2 [0x5A#8, 0x02#8, 0x02#8] ∧ InForm .q2 [0x5A#8, 0xFF#8] :=
  ⟨⟨0x02#8, [0x02#8], rfl, by decide, by decide⟩, ⟨0xFF#8, [], rfl, by decide, by decide⟩⟩
theorem wit_QuiescentForms_q3 : InForm .q3 [0x5A#8, 0x02#8, 0x02#8, 0x02#8] :=
  ⟨0x02#8, [0x02#8, 0x02#8], rfl, by decide, by decide, by decide⟩
theorem wit_QuiescentForms_step : Quiescent (st 0#8 [0x5A#8]).rxq ∧
    exec (.rxPush 0x02#8) (st 0#8 [0x5A#8]) = .next ((st 0#8 [0x5A#8, 0x02#8]).give (.events [])) :=
  ⟨⟨.q1, rfl⟩, rfl⟩

/-- Full queues of both kinds, and the longest queue behind the greatest harmless length. -/
theorem wit_Overflow_full_q2 : Quiescent (0x5A#8 :: 0xFF#8 :: List.replicate 254 0#8) ∧
    (0x5A#8 :: 0xFF#8 :: List.replicate 254 0#8).length = 256 :=
  ⟨⟨.q2, 0xFF#8, List.replicate 254 0#8, rfl, by decide +kernel, by decide +kernel⟩, by decide +kernel⟩
theorem wit_Overflow_full_q3 : Quiescent (0x5A#8 :: 0xFE#8 :: List.replicate 254 0#8) ∧
    (0x5A#8 :: 0xFE#8 :: List.replicate 254 0#8).length = 256 :=
  ⟨⟨.q3, 0xFE#8, List.replicate 254 0#8, rfl, by decide +kernel, by decide +kernel, by decide +kernel⟩, by decide +kernel⟩
theorem wit_Overflow_longest : Quiescent (0x5A#8 :: 0xFD#8 :: List.replicate 253 0#8) ∧
    (0x5A#8 :: 0xFD#8 :: List.replicate 253 0#8)[1]? = some 0xFD#8 ∧ (0xFD#8).toNat ≤ 253 :=
  ⟨⟨.q3, 0xFD#8, List.replicate 253 0#8, rfl, by decide +kernel, by decide +kernel, by decide +kernel⟩, by decide +kernel⟩
theorem wit_Overflow_lengths : (List.replicate 254 0#8).length = 254 ∧ (List.replicate 253 0#8).length = 253 ∧
    checksum (List.replicate 253 0#8) ≠ 0x01#8 ∧ checksum (List.replicate 253 0#8) = 0x00#8 ∧
    (List.replicate 251 0#8).length = 251 := by decide +kernel
/-- What a push answers, from what it does to the queue. -/
theorem exec_rxPush_of (b : Byte) (s : State) (evs : List Event) (q : List Byte) (h : pushByte s.rxq b = (evs, q)) :
    exec (.rxPush b) s = .next ((s.setRxq q).give (.events evs)) := by
  simp [exec, execRxPush, h]
theorem wit_Overflow_push : (st 0#8 [0x5A#8, 0x02#8, 0x02#8, 0x02#8]).rxq.length ≤ 256 ∧
    exec (.rxPush 0xA5#8) (st 0#8 [0x5A#8, 0x02#8, 0x02#8, 0x02#8]) =
      .next ((st 0#8 []).give (.events [.frame 0x02#8 0#8 [] true 0x02#8])) := ⟨by decide, rfl⟩
theorem wit_Overflow_push_full : (st 0#8 (List.replicate 256 0#8)).rxq.length ≤ 256 ∧
    exec (.rxPush 0x5A#8) (st 0#8 (List.replicate 256 0#8)) = .next ((st 0#8 []).give (.events [.overflow])) :=
  ⟨by decide +kernel, exec_rxPush_of _ _ _ _ (by decide +kernel)⟩

/-- Pushes with a flush, a reserved code, another unit's operation and a reset among them. -/
theorem wit_ConservationOfBytes :
    ((st 0#8 []).setPending [iss 0xC5A#12, iss 0xD00#12, iss 0x600#12, iss 0x15A#12, .reset, iss 0xC5A#12]).pending =
      [iss 0xC5A#12, iss 0xD00#12, iss 0x600#12, iss 0x15A#12, .reset] ++ [iss 0xC5A#12] := rfl

/-- The corrupted frame of RX9, then `CHK` right with a wrong tail, then an uncorrupted one; least and greatest length. -/
theorem wit_Recovery : (st 0#8 []).rxq = [] ∧ ([] : List Byte).length ≤ 251 ∧ (List.replicate 251 0#8).length ≤ 251 ∧
    (2 ≤ (0x07#8).toNat ∧ (0x07#8).toNat ≤ 253 ∧
      [0x01#8, 0x01#8, 0xFE#8, 0x00#8, 0x00#8, 0x0A#8, 0x0B#8, 0xA5#8].length = (0x07#8).toNat + 1 ∧
      0x5A#8 ∉ 0x07#8 :: [0x01#8, 0x01#8, 0xFE#8, 0x00#8, 0x00#8, 0x0A#8, 0x0B#8, 0xA5#8] ∧
      [0x01#8, 0x01#8, 0xFE#8, 0x00#8, 0x00#8, 0x0A#8, 0x0B#8, 0xA5#8][(0x07#8).toNat - 1]? ≠
        some (checksum [0x01#8, 0x01#8, 0xFE#8, 0x00#8, 0x00#8, 0x0A#8])) ∧
    (2 ≤ (0x02#8).toNat ∧ [0x02#8, 0x02#8, 0xA6#8].length = (0x02#8).toNat + 1 ∧ 0x5A#8 ∉ 0x02#8 :: [0x02#8, 0x02#8, 0xA6#8]) ∧
    ((0xFD#8).toNat ≤ 253 ∧ (List.replicate 254 0#8).length = (0xFD#8).toNat + 1 ∧ 0x5A#8 ∉ 0xFD#8 :: List.replicate 254 0#8) := by
  decide +kernel

theorem wit_NoiseIsDroppedSilently : (st 0#8 []).rxq = [] ∧ 0x5A#8 ∉ [0x00#8, 0x11#8, 0xA5#8, 0xFF#8] := by decide

/-- The candidate waits for its last byte before `CHK`, and for all of them. -/
theorem wit_WaitingCandidate : (st 0#8 [0x5A#8, 0x03#8, 0x01#8]).rxq = 0x5A#8 :: 0x03#8 :: [0x01#8] ∧
    2 ≤ (0x03#8).toNat ∧ [0x01#8].length + 1 < (0x03#8).toNat ∧
    (st 0#8 [0x5A#8, 0x02#8]).rxq = 0x5A#8 :: 0x02#8 :: [] ∧ 2 ≤ (0x02#8).toNat ∧ ([] : List Byte).length + 1 < (0x02#8).toNat ∧
    (List.replicate 253 0#8).length + 1 < (0xFF#8).toNat := by decide +kernel

theorem wit_DispatchClassifiesType :
    [0x01#8, 0x02#8, 0x03#8, 0x04#8, 0x06#8, 0x07#8, 0x0A#8, 0x0E#8][0]? = some 0x01#8 ∧
    [0x01#8, 0x02#8, 0x03#8, 0x04#8, 0x06#8, 0x07#8, 0x0A#8, 0x0E#8][7]? = some 0x0E#8 ∧
    0x05#8 ∉ [0x01#8, 0x02#8, 0x03#8, 0x04#8, 0x06#8, 0x07#8, 0x0A#8, 0x0E#8] ∧ (List.replicate 251 0#8).length ≤ 251 := by decide +kernel

theorem wit_UnknownTypeDelivers : 0x00#8 ∉ [0x01#8, 0x02#8, 0x03#8, 0x04#8, 0x06#8, 0x07#8, 0x0A#8, 0x0E#8] := by decide

/-- The shortest frame and the longest, each at the push of its tail. -/
theorem wit_PushDeliversThroughItsRow_first :
    (st 0#8 [0x5A#8, 0x02#8, 0x02#8, 0x02#8]).rxq.length < 256 ∧
    decode1 ([0x5A#8, 0x02#8, 0x02#8, 0x02#8] ++ [0xA5#8]) = (.frame 0x02#8 [], []) ∧
    (st 0#8 ([0x5A#8, 0xFD#8, 0x01#8] ++ List.replicate 251 0xFF#8 ++ [0x06#8])).rxq.length = 255 ∧
    decode1 ([0x5A#8, 0xFD#8, 0x01#8] ++ List.replicate 251 0xFF#8 ++ [0x06#8] ++ [0xA5#8]) =
      (.frame 0x01#8 (List.replicate 251 0xFF#8), []) := by decide +kernel
/-- A `FRAME` event that is not the first event of its push (RX19b). -/
theorem wit_PushDeliversThroughItsRow_any :
    (st 0#8 [0x5A#8, 0x07#8, 0x01#8, 0x01#8, 0x5A#8, 0x02#8, 0x02#8, 0x02#8]).rxq.length ≤ 256 ∧
    exec (.rxPush 0xA5#8) (st 0#8 [0x5A#8, 0x07#8, 0x01#8, 0x01#8, 0x5A#8, 0x02#8, 0x02#8, 0x02#8]) =
      .next ((st 0#8 []).give (.events [.badChk, .frame 0x02#8 0#8 [] true 0x02#8])) ∧
    Event.frame 0x02#8 0#8 [] true 0x02#8 ∈ [Event.badChk, .frame 0x02#8 0#8 [] true 0x02#8] :=
  ⟨by decide, test_rxPush_rx19b, by decide⟩

theorem wit_StepRunsDecodedInstruction : (issued 0x11#8 [] 0x15A#12).pending = .issue 0x15A#12 0#32 .zero [] :: [] ∧
    decode (cmd 0x15A#12) = .ok (.csAdd 0x5A#8) := by decide
/-- The shortest and the longest frame, each held up to its tail. -/
theorem wit_StepRunsDecodedInstruction_row :
    (issued 0#8 [0x5A#8, 0x02#8, 0x02#8, 0x02#8] 0xCA5#12).rxq ++ [0xA5#8] = encodeFrame 0x02#8 [] ∧
    (issued 0#8 [0x5A#8, 0x02#8, 0x02#8, 0x02#8] 0xCA5#12).pending = .issue 0xCA5#12 0#32 .zero [] :: [] ∧
    decode (.frame (frameHeader (BitVec.ofNat 8 (0 + 2)) 0x02#8) []) = .ok (.sfSysStatus 0x02#8 []) ∧
    (List.replicate 251 0xFF#8).length ≤ 251 ∧
    (issued 0#8 ([0x5A#8, 0xFD#8, 0x01#8] ++ List.replicate 251 0xFF#8 ++ [0x06#8]) 0xCA5#12).rxq ++ [0xA5#8] =
      encodeFrame 0x01#8 (List.replicate 251 0xFF#8) := by decide +kernel

theorem wit_IdleStep : State.reset.pending = [] := rfl

theorem wit_ReservedCodes : (0x6#4 : BitVec 4) ∈ [0x6#4, 0x7#4, 0x9#4, 0xA#4, 0xB#4, 0xE#4, 0xF#4] ∧
    (0xF#4 : BitVec 4) ∈ [0x6#4, 0x7#4, 0x9#4, 0xA#4, 0xB#4, 0xE#4, 0xF#4] ∧
    (0x5#4 : BitVec 4) ∉ [0x6#4, 0x7#4, 0x9#4, 0xA#4, 0xB#4, 0xE#4, 0xF#4] ∧
    (issued 0#8 [] (commandWord 0x6#4 0#8)).pending = .issue (commandWord 0x6#4 0#8) 0#32 .zero [] :: [] := by decide

theorem wit_ResetInput : ((st 0x37#8 [0x5A#8]).setPending [.reset]).pending = .reset :: [] := rfl

/-- A reachable state that is not the reset state: a lone head is buffered. -/
theorem wit_Reachable : Reachable ((st 0#8 [0x5A#8]).give (.events [])) :=
  .step (State.reset.setPending [iss 0xC5A#12]) _ (.input _ _ .reset) rfl

/-- A state that meets the invariant and whose step runs an instruction. -/
theorem wit_StepKeepsInvariant : Inv (issued 0#8 [0x5A#8] 0xC02#12) ∧
    step (issued 0#8 [0x5A#8] 0xC02#12) = .next ((st 0#8 [0x5A#8, 0x02#8]).give (.events [])) :=
  ⟨⟨by decide, by decide, .q1, rfl⟩, rfl⟩

theorem wit_UnitsKeepToTheirState : exec .csGet (st 0x11#8 [0x5A#8]) = .next ((st 0x11#8 [0x5A#8]).give (.r8 0x11#8)) ∧
    Instr.csGet ≠ .csClr ∧ (∀ b, Instr.csGet ≠ .csAdd b) ∧ Instr.csGet ≠ .rxFlush ∧ (∀ b, Instr.csGet ≠ .rxPush b) ∧
    step (issued 0x11#8 [] 0x000#12) = .next (st 0x00#8 []) :=
  ⟨rfl, by decide, (by intro b h; cases h), by decide, (by intro b h; cases h), rfl⟩

theorem wit_UnitsCommute : unitOf (.csAdd 0x5A#8) ≠ unitOf (.rxPush 0x5A#8) := by decide

theorem wit_ResultsAreAppended : exec (.csAdd 0x01#8) (st 0x11#8 []) = .next (st 0x12#8 []) ∧
    exec .csGet (st 0x11#8 []) = .next ((st 0x11#8 []).give (.r8 0x11#8)) := ⟨rfl, rfl⟩

/-- Steps that give a parser event, an encoder event and a reserved code's event. -/
theorem wit_EventsOfOperations_step :
    step (issued 0#8 [0x5A#8] 0xC00#12) = .next ((st 0#8 []).give (.events [.badLen])) ∧
    step ((st 0#8 []).setPending [.issue 0x801#12 0#32 .zero (List.replicate 252 0#8)]) =
      .next ((st 0#8 []).give (.events [.txTooLong 252])) ∧
    step (issued 0#8 [] 0x600#12) = .next ((st 0#8 []).give (.events [.opReserved 0x6#4])) :=
  ⟨rfl, congrArg (fun o => Host.Outcome.next ((st 0#8 []).give o)) test_txEnc_tx12, rfl⟩

/-- An event of each of the three kinds of operation. -/
theorem wit_EventsOfOperations :
    eventsOf [.events [.badLen]] = [.badLen] ∧
    exec (.rxPush 0x00#8) (st 0#8 [0x5A#8]) = .next ((st 0#8 []).give (.events [.badLen])) ∧
    exec (.txEnc 0x01#8 (List.replicate 252 0#8)) (st 0#8 []) = .next ((st 0#8 []).give (.events [.txTooLong 252])) ∧
    exec (.sfUnknown 0x02#8 0x05#8 []) (st 0#8 []) =
      .next ((st 0#8 []).give (.events [.frame 0x05#8 0#8 [] false 0x00#8])) :=
  ⟨rfl, rfl, congrArg (fun o => Host.Outcome.next ((st 0#8 []).give o)) test_txEnc_tx12, rfl⟩

theorem wit_RepeatedOperations : unitOf (.cidUnpack 0#32) = .cic ∧ unitOf (.txEnc 0#8 []) = .txe := by decide

theorem wit_DecodeOfEncode : (Instr.csAdd 0xFF#8).wellFormed = true ∧ (Instr.sfLedsCtrl 0x02#8 []).wellFormed = true ∧
    (Instr.sfUnknown 0xFD#8 0x05#8 (List.replicate 251 0#8)).wellFormed = true := by decide +kernel

theorem wit_DecodeFollowsTableRows : decode (cmd 0xD00#12) = .ok .rxFlush ∧
    decode (.frame 0x5A0205#24 []) = .ok (.sfUnknown 0x02#8 0x05#8 []) ∧
    (0xA50202#24).toNat &&& 0xFF0000 ≠ 0x5A0000 ∧ (0x5A0205#24).toNat &&& 0xFF0000 = 0x5A0000 := by decide

end Sys2Proof.Tests
end

section
/-! PROOF. The receive queue under the loop of `RX.PUSH`: it ends quiescent and no longer than it began (43_frame_rx.md rules R100,
R102, R106). -/

namespace Sys2Proof.Machine

theorem quiescent_nil : Quiescent [] := ⟨.q0, rfl⟩

/-- One turn of the loop: it stops on a quiescent queue that is no longer than before, or goes on from a shorter one. -/
theorem drain_succ_cases (turns : Nat) (q : List Byte) :
    (∃ q', Quiescent q' ∧ q'.length ≤ q.length ∧ drain (turns + 1) q = ([], q')) ∨
    (∃ e q', q'.length < q.length ∧ drain (turns + 1) q = firstEvent e (drain turns q')) := by
  obtain ⟨noise, q0, hq, -, ⟨hquiet, hd⟩ | ⟨r, q', -, hd⟩ | ⟨t, p, q', -, -, hd⟩⟩ := decode1_cases q
  · exact .inl ⟨q0, hquiet, by simp [hq], by simp [drain, hd]⟩
  · exact .inr ⟨reasonEvent r, q', decode1_length_lt q q' _ hd (by simp), by simp [drain, hd]⟩
  · exact .inr ⟨dispatch t p, q', decode1_length_lt q q' _ hd (by simp), by simp [drain, hd]⟩

/-- With a turn for every byte and one to stop, the bound on the turns is not met, and so the loop ends quiescent (log 11). -/
theorem drain_quiescent (turns : Nat) (q : List Byte) (h : q.length < turns) : Quiescent (drain turns q).2 := by
  induction turns generalizing q with
  | zero => omega
  | succ turns ih =>
    obtain ⟨q', hquiet, -, hd⟩ | ⟨e, q', hlt, hd⟩ := drain_succ_cases turns q
    · rw [hd]; exact hquiet
    · rw [hd]; exact ih q' (by omega)

theorem drain_length_le (turns : Nat) (q : List Byte) : (drain turns q).2.length ≤ q.length := by
  induction turns generalizing q with
  | zero => exact le_rfl
  | succ turns ih =>
    obtain ⟨q', -, hle, hd⟩ | ⟨e, q', hlt, hd⟩ := drain_succ_cases turns q
    · rw [hd]; exact hle
    · rw [hd]; exact (ih q').trans hlt.le

/-- A push leaves a quiescent queue, whatever queue it found. -/
theorem pushByte_quiescent (q : List Byte) (b : Byte) : Quiescent (pushByte q b).2 := by
  obtain ⟨-, hp⟩ | ⟨-, hp⟩ := pushByte_cases q b
  · rw [hp]; exact quiescent_nil
  · rw [hp]; exact drain_quiescent _ _ (by simp)

/-- A push leaves at most `BUF_LEN` bytes, whatever queue it found: a byte is appended only below the bound (rule R101). -/
theorem pushByte_wf (q : List Byte) (b : Byte) : Memory.wf (pushByte q b).2 = true := by
  rw [Memory.wf_iff]
  obtain ⟨-, hp⟩ | ⟨hlt, hp⟩ := pushByte_cases q b
  · simp [hp]
  · have hle := drain_length_le (q.length + 2) (q ++ [b])
    rw [List.length_append, List.length_singleton] at hle
    rw [hp]; omega

end Sys2Proof.Machine
end

section
/-! PROOF. The state invariant holds at reset and every input and step keeps it, so it holds of every reachable state (10_state.md
rules R21, R22). -/

namespace Sys2Proof.Machine

@[simp] theorem applyReset_csAcc (s : State) : (applyReset s).csAcc = 0x00#8 := rfl
@[simp] theorem applyReset_rxq (s : State) : (applyReset s).rxq = [] := rfl
@[simp] theorem applyReset_cidLayout (s : State) : (applyReset s).cidLayout = s.cidLayout := rfl

@[simp] theorem raiseReserved_rxq (op : BitVec 4) (s : State) : (raiseReserved op s).rxq = s.rxq := rfl
@[simp] theorem raiseReserved_cidLayout (op : BitVec 4) (s : State) : (raiseReserved op s).cidLayout = s.cidLayout := rfl

/-- All that an instruction can do to the queue: only `RX.PUSH` and `RX.FLUSH` write it (rule R12). -/
theorem exec_rxq_cases (i : Instr) (s t : State) (h : exec i s = .next t) :
    t.rxq = s.rxq ∨ (i = .rxFlush ∧ t.rxq = []) ∨ ∃ b, i = .rxPush b ∧ t.rxq = (pushByte s.rxq b).2 := by
  cases i with
  | rxPush b => cases h; exact .inr (.inr ⟨b, rfl, rfl⟩)
  | rxFlush => cases h; exact .inr (.inl ⟨rfl, rfl⟩)
  | _ => cases h; exact .inl rfl

/-- No instruction writes the layout (log 3). -/
theorem exec_cidLayout (i : Instr) (s t : State) (h : exec i s = .next t) : t.cidLayout = s.cidLayout := by
  cases i <;> cases h <;> rfl

theorem inv_reset : Inv State.reset := ⟨by decide, Memory.wf_reset, quiescent_nil⟩

/-- The invariant is about the layout and the queue alone. -/
theorem Inv.congr {s t : State} (hs : Inv s) (hl : t.cidLayout = s.cidLayout) (hq : t.rxq = s.rxq) : Inv t := by
  rwa [Inv, hl, hq]

/-- An empty queue meets the queue's part of the invariant. -/
theorem Inv.of_rxq_nil {s t : State} (hs : Inv s) (hl : t.cidLayout = s.cidLayout) (hq : t.rxq = []) : Inv t := by
  obtain ⟨hvalid, -, -⟩ := hs
  rw [Inv, hl, hq]
  exact ⟨hvalid, Memory.wf_clear, quiescent_nil⟩

theorem exec_keeps_inv (i : Instr) (s t : State) (hs : Inv s) (h : exec i s = .next t) : Inv t := by
  have hl := exec_cidLayout i s t h
  obtain hq | ⟨-, hq⟩ | ⟨b, -, hq⟩ := exec_rxq_cases i s t h
  · exact hs.congr hl hq
  · exact hs.of_rxq_nil hl hq
  · obtain ⟨hvalid, -, -⟩ := hs
    rw [Inv, hl, hq]
    exact ⟨hvalid, pushByte_wf s.rxq b, pushByte_quiescent s.rxq b⟩

/-- The environment's inputs do not touch what the invariant speaks of. -/
theorem Inv.setPending {s : State} (hs : Inv s) (l : List Input) : Inv (s.setPending l) := hs.congr rfl rfl

theorem step_keeps_inv (s t : State) (hs : Inv s) (h : step s = .next t) : Inv t := by
  obtain ⟨-, rfl⟩ | ⟨rest, -, rfl⟩ | ⟨_, _, _, _, rest, i, -, -, hi⟩ | ⟨_, _, _, _, rest, op, -, -, rfl⟩ := step_cases s t h
  · exact hs
  · exact hs.of_rxq_nil (applyReset_cidLayout _) (applyReset_rxq _)
  · exact exec_keeps_inv i _ t (hs.setPending rest) hi
  · exact (hs.setPending rest).congr (raiseReserved_cidLayout op _) (raiseReserved_rxq op _)

theorem Reachable.inv {s : State} (h : Reachable s) : Inv s := by
  induction h with
  | reset => exact inv_reset
  | input s l _ ih => exact ih.setPending l
  | step s t _ hstep ih => exact step_keeps_inv s t ih hstep

/-- Settles O40: the state invariant bounds the queue and makes it quiescent, and the width of `CS_ACC` makes it a byte. -/
theorem reachableStatesMeetInvariant : Obligations.ReachableStatesMeetInvariant := by
  intro s h
  obtain ⟨-, hwf, hquiet⟩ := h.inv
  exact ⟨Nat.le_of_lt_succ s.csAcc.isLt, (Memory.wf_iff s.rxq).mp hwf, hquiet⟩

/-- Settles O38, from the reset values of the two items of state and what `RESET` leaves in them. -/
theorem resetValues : Obligations.ResetValues :=
  ⟨State.reset_csAcc, State.reset_rxq, fun s => ⟨applyReset_csAcc s, applyReset_rxq s⟩⟩

end Sys2Proof.Machine
end

section
/-! PROOF. The checksum as a function of byte lists: it is the sum of the bytes as `BitVec 8` adds them, so the library's laws of sums
carry its laws (40_checksum.md rules R60, R61, R68). -/

namespace Sys2Proof.Machine

/-- The left fold of the model is the library's sum. -/
theorem checksum_eq_sum (bs : List Byte) : checksum bs = bs.sum := by
  induction bs using List.reverseRecOn with
  | nil => rfl
  | append_singleton bs b ih => rw [checksum_append_singleton, ih, List.sum_append, List.sum_singleton]

@[simp] theorem checksum_cons (b : Byte) (bs : List Byte) : checksum (b :: bs) = b + checksum bs := by
  rw [checksum_eq_sum, checksum_eq_sum, List.sum_cons]

@[simp] theorem checksum_append (a b : List Byte) : checksum (a ++ b) = checksum a + checksum b := by
  rw [checksum_eq_sum, checksum_eq_sum, checksum_eq_sum, List.sum_append]

theorem checksum_perm {a b : List Byte} (h : a.Perm b) : checksum a = checksum b := by
  rw [checksum_eq_sum, checksum_eq_sum, h.sum_eq]

/-- The checksum as a number (rule R60). -/
theorem checksum_toNat (bs : List Byte) : (checksum bs).toNat = (bs.map BitVec.toNat).sum % 256 := by
  induction bs with
  | nil => rfl
  | cons b bs ih => rw [checksum_cons, BitVec.toNat_add, ih, List.map_cons, List.sum_cons, Nat.add_mod_mod]

/-- What the checksum does not tell apart (rule R68 (c)): exactly the byte lists whose sums differ by a multiple of 256. -/
theorem checksum_eq_checksum_iff (a b : List Byte) :
    checksum a = checksum b ↔ (a.map BitVec.toNat).sum % 256 = (b.map BitVec.toNat).sum % 256 := by
  rw [← checksum_toNat, ← checksum_toNat, BitVec.toNat_inj]

/-- One byte of a list can be read back from the checksum and the other bytes (rule R68 (b)). -/
theorem checksum_replace_eq_iff (a c : List Byte) (x y : Byte) :
    checksum (a ++ y :: c) = checksum (a ++ x :: c) ↔ y = x := by
  rw [checksum_append, checksum_append, add_right_inj, checksum_cons, checksum_cons, add_left_inj]

/-- A zero byte adds nothing. -/
theorem checksum_insert_zero (a c : List Byte) : checksum (a ++ 0x00#8 :: c) = checksum (a ++ c) := by
  rw [checksum_append, checksum_cons, BitVec.zero_add, checksum_append]

/-- `verify` as rule R61 states it. -/
theorem verify_iff (bs : List Byte) (e : Byte) : verify bs e = true ↔ checksum bs = e := beq_iff_eq

theorem verify_eq_false_iff (bs : List Byte) (e : Byte) : verify bs e = false ↔ checksum bs ≠ e := beq_eq_false_iff_ne

/-- Settles O5, from the checksum as a number, its growth by one byte and what `verify` decides. -/
theorem checksumIsSumModulo256 : Obligations.ChecksumIsSumModulo256 := by
  refine ⟨checksum_nil, fun bytes => ⟨checksum_toNat bytes, fun b => ?_, verify_iff bytes⟩⟩
  rw [checksum_append_singleton, BitVec.toNat_add]

/-- Settles O7: the positive part is that a byte can be read back from the sum, the negative part that only the sum modulo 256
counts. -/
theorem checksumDetection : Obligations.ChecksumDetection := by
  refine ⟨fun b => (verify_iff _ _).mpr rfl, fun a c x y hne => ?_, fun b b' hsum => ?_, fun b b' hperm => ?_, fun a c => ⟨?_, ?_⟩,
    by decide, by decide⟩
  · have hdiff : checksum (a ++ y :: c) ≠ checksum (a ++ x :: c) := fun h => hne ((checksum_replace_eq_iff a c x y).mp h).symm
    exact ⟨hdiff, (verify_eq_false_iff _ _).mpr hdiff⟩
  · exact (verify_iff _ _).mpr ((checksum_eq_checksum_iff b' b).mpr hsum.symm)
  · exact (verify_iff _ _).mpr (checksum_perm hperm.symm)
  · exact (verify_iff _ _).mpr (checksum_insert_zero a c)
  · exact (verify_iff _ _).mpr (checksum_insert_zero a c).symm

end Sys2Proof.Machine
end

section
/-! PROOF. The four operations of the checksum unit and the streaming law (40_checksum.md rules R62 to R66). -/

namespace Sys2Proof.Machine

/-! ## The command words -/

/-- A command word as a number: the operation code above the byte operand (30_encoding.md rule R50). -/
theorem commandWord_eq_ofNat (op : BitVec 4) (a : Byte) : commandWord op a = BitVec.ofNat 12 (op.toNat * 256 + a.toNat) := by
  apply BitVec.eq_of_toNat_eq
  have hop := op.isLt
  have ha := a.isLt
  rw [commandWord, BitVec.toNat_append, ← Nat.shiftLeft_add_eq_or_of_lt ha, Nat.shiftLeft_eq, BitVec.toNat_ofNat]
  omega

theorem decode_csClr (a : Byte) (w : Word) (f : CanFields) (p : List Byte) :
    decode (.command (commandWord 0x0#4 a) w f p) = .ok .csClr := by
  simp [decode, decodeCommand]

theorem decode_csAdd (b : Byte) (w : Word) (f : CanFields) (p : List Byte) :
    decode (.command (commandWord 0x1#4 b) w f p) = .ok (.csAdd b) := by
  simp [decode, decodeCommand]

theorem decode_csGet (a : Byte) (w : Word) (f : CanFields) (p : List Byte) :
    decode (.command (commandWord 0x2#4 a) w f p) = .ok .csGet := by
  simp [decode, decodeCommand]

theorem decode_csVfy (e : Byte) (w : Word) (f : CanFields) (p : List Byte) :
    decode (.command (commandWord 0x3#4 e) w f p) = .ok (.csVfy e) := by
  simp [decode, decodeCommand]

/-! ## What each operation does -/

theorem exec_csClr (s : State) : exec .csClr s = .next (s.setAcc 0x00#8) := rfl

theorem exec_csAdd (b : Byte) (s : State) : exec (.csAdd b) s = .next (s.setAcc (s.csAcc + b)) := rfl

theorem exec_csGet (s : State) : exec .csGet s = .next (s.give (.r8 s.csAcc)) := rfl

theorem exec_csVfy (e : Byte) (s : State) : exec (.csVfy e) s = .next (s.give (.r1 (s.csAcc == e))) := rfl

/-- Of two writes of the accumulator the later one stays. -/
@[simp] theorem State.setAcc_setAcc (s : State) (v v' : Byte) : (s.setAcc v).setAcc v' = s.setAcc v' := rfl

/-- The operations of the other units answer a next state and leave the accumulator alone (10_state.md rule R11). -/
theorem exec_csAcc_of_other_unit (i : Instr) (s : State) (h : unitOf i ≠ .csu) :
    ∃ t, exec i s = .next t ∧ t.csAcc = s.csAcc := by
  cases i with
  | csClr | csAdd | csGet | csVfy => exact absurd rfl h
  | _ => exact ⟨_, rfl, rfl⟩

/-! ## Runs of additions -/

@[simp] theorem addends_nil : addends [] = [] := rfl

@[simp] theorem addends_csAdd (b : Byte) (is : List Instr) : addends (.csAdd b :: is) = b :: addends is := rfl

/-- An operation of another unit adds no byte. -/
theorem addends_of_other_unit (i : Instr) (is : List Instr) (h : unitOf i ≠ .csu) : addends (i :: is) = addends is := by
  cases i with
  | csAdd => exact absurd rfl h
  | _ => rfl

/-- The streaming law without `CS.CLR`: the run adds the checksum of its addends to the accumulator. -/
theorem runInstrs_additions (is : List Instr) (s : State) (h : ∀ i ∈ is, unitOf i = .csu → ∃ b, i = .csAdd b) :
    ∃ t, runInstrs is s = .next t ∧ t.csAcc = s.csAcc + checksum (addends is) := by
  induction is generalizing s with
  | nil => exact ⟨s, rfl, (BitVec.add_zero _).symm⟩
  | cons i is ih =>
    obtain ⟨hi, his⟩ := List.forall_mem_cons.mp h
    by_cases hu : unitOf i = .csu
    · obtain ⟨b, rfl⟩ := hi hu
      obtain ⟨t, hrun, hacc⟩ := ih (s.setAcc (s.csAcc + b)) his
      refine ⟨t, (runInstrs_cons _ _ _ _ (exec_csAdd b s)).trans hrun, ?_⟩
      rw [hacc, State.setAcc_csAcc, addends_csAdd, checksum_cons, BitVec.add_assoc]
    · obtain ⟨s', hexec, hkeep⟩ := exec_csAcc_of_other_unit i s hu
      obtain ⟨t, hrun, hacc⟩ := ih s' his
      refine ⟨t, (runInstrs_cons _ _ _ _ hexec).trans hrun, ?_⟩
      rw [hacc, hkeep, addends_of_other_unit i is hu]

/-- Additions with nothing among them write the accumulator and nothing else. -/
theorem runInstrs_map_csAdd_append (bytes : List Byte) (is : List Instr) (s : State) :
    runInstrs (bytes.map .csAdd ++ is) s = runInstrs is (s.setAcc (s.csAcc + checksum bytes)) := by
  induction bytes generalizing s with
  | nil => rw [checksum_nil, BitVec.add_zero]; rfl
  | cons b bytes ih =>
    rw [List.map_cons, List.cons_append, runInstrs_cons _ _ _ _ (exec_csAdd b s), ih, State.setAcc_csAcc, State.setAcc_setAcc,
      checksum_cons, BitVec.add_assoc]

/-- The common part of `CS.SUM` and `CS.CHECK`: after the `CS.CLR` the additions leave the checksum itself. -/
theorem runInstrs_csClr_map_csAdd_append (bytes : List Byte) (is : List Instr) (s : State) :
    runInstrs (.csClr :: (bytes.map .csAdd ++ is)) s = runInstrs is (s.setAcc (checksum bytes)) := by
  rw [runInstrs_cons _ _ _ _ (exec_csClr s), runInstrs_map_csAdd_append, State.setAcc_csAcc, State.setAcc_setAcc,
    BitVec.zero_add]

theorem runInstrs_csSum (bytes : List Byte) (s : State) :
    runInstrs (csSum bytes) s = .next ((s.setAcc (checksum bytes)).give (.r8 (checksum bytes))) :=
  runInstrs_csClr_map_csAdd_append bytes [.csGet] s

theorem runInstrs_csCheck (bytes : List Byte) (e : Byte) (s : State) :
    runInstrs (csCheck bytes e) s = .next ((s.setAcc (checksum bytes)).give (.r1 (verify bytes e))) :=
  runInstrs_csClr_map_csAdd_append bytes [.csVfy e] s

/-! ## The obligations -/

/-- Settles O8: the law without `CS.CLR`, used from the state itself and from the state that `CS.CLR` leaves. -/
theorem streamingLaw : Obligations.StreamingLaw := by
  refine ⟨fun is s h => ?_, runInstrs_csSum, runInstrs_csCheck⟩
  obtain ⟨t, hrun, hacc⟩ := runInstrs_additions is s h
  obtain ⟨t', hrun', hacc'⟩ := runInstrs_additions is (s.setAcc 0x00#8) h
  rw [State.setAcc_csAcc, BitVec.zero_add] at hacc'
  refine ⟨t, hrun, hacc, t', (runInstrs_cons _ _ _ _ (exec_csClr s)).trans hrun', hacc', ?_, fun e => ?_⟩
  · rw [← hacc']; exact exec_csGet t'
  · rw [verify, ← hacc']; exact exec_csVfy e t'

/-- Settles O1, from the decoding and the effect of `CS.CLR`. -/
theorem clearZeroesAccumulator : Obligations.ClearZeroesAccumulator :=
  fun a w f p s => ⟨by decide, decode_csClr a w f p, exec_csClr s⟩

/-- Settles O2: the sum of two bytes as `BitVec 8` adds them is the sum modulo 256. -/
theorem addIsModulo256 : Obligations.AddIsModulo256 := by
  intro b w f p s
  have hword : commandWord 0x1#4 b = BitVec.ofNat 12 (0x100 + b.toNat) := commandWord_eq_ofNat 0x1#4 b
  exact ⟨hword ▸ decode_csAdd b w f p, s.csAcc + b, BitVec.toNat_add _ _, exec_csAdd b s⟩

/-- Settles O3: `CS.CLR` then `CS.GET` is `CS.SUM` of no byte. -/
theorem getReturnsAccumulator : Obligations.GetReturnsAccumulator :=
  fun a w f p s => ⟨by decide, decode_csGet a w f p, exec_csGet s, runInstrs_csSum [] s, exec_csGet State.reset⟩

/-- Settles O4: `CS.CLR` then `CS.VFY e` is `CS.CHECK` of no byte. -/
theorem verifyComparesAccumulator : Obligations.VerifyComparesAccumulator := by
  intro e w f p s
  have hword : commandWord 0x3#4 e = BitVec.ofNat 12 (0x300 + e.toNat) := commandWord_eq_ofNat 0x3#4 e
  have hzero : decide (e = 0x00#8) = verify [] e := by
    rw [verify, checksum_nil, beq_eq_decide]
    exact decide_eq_decide.mpr eq_comm
  rw [hzero]
  exact ⟨hword ▸ decode_csVfy e w f p, exec_csVfy e s, runInstrs_csCheck [] e s, exec_csVfy e State.reset⟩

end Sys2Proof.Machine
end

section
/-! PROOF. The CAN-ID codec as functions of words: each container bit of a valid layout belongs to one field and carries that field's
operand, so `pack` and `unpack` are inverse to each other (41_canid.md rules R72, R73, R76). -/

namespace Sys2Proof.Machine

/-! ## The bits of a valid layout -/

theorem Layout.holds_iff (l : Layout) (f : CanField) (i : Nat) : l.holds f i = true ↔ l.lo f ≤ i ∧ i < l.lo f + l.wd f := by
  simp [Layout.holds]

/-- The bits of a field, counted from its low bit. -/
theorem Layout.holds_lo_add {l : Layout} {f : CanField} {i : Nat} (hi : i < l.wd f) : l.holds f (l.lo f + i) = true :=
  (Layout.holds_iff l f _).mpr ⟨Nat.le_add_right _ _, Nat.add_lt_add_left hi _⟩

/-- No field reaches beyond the container. -/
theorem Layout.lt_of_holds {l : Layout} (hl : l.valid = true) {f : CanField} {i : Nat} (hf : l.holds f i = true) : i < 32 := by
  obtain ⟨-, -, hfit, -⟩ := (Layout.valid_iff l).mp hl
  exact ((Layout.holds_iff l f i).mp hf).2.trans_le (hfit f)

/-- The fields cover the container. -/
theorem Layout.exists_holds {l : Layout} (hl : l.valid = true) {i : Nat} (hi : i < 32) : ∃ f, l.holds f i = true := by
  obtain ⟨-, -, -, hcover, -⟩ := (Layout.valid_iff l).mp hl
  exact (hcover i hi).imp fun f => (Layout.holds_iff l f i).mpr

/-- The fields do not overlap. -/
theorem Layout.holds_unique {l : Layout} (hl : l.valid = true) {f g : CanField} {i : Nat} (hf : l.holds f i = true)
    (hg : l.holds g i = true) : f = g := by
  obtain ⟨-, hapart, -⟩ := (Layout.valid_iff l).mp hl
  rw [Layout.holds_iff] at hf hg
  by_contra hne
  have := hapart f g hne
  omega

/-! ## Truncation and placement -/

theorem trunc_congr {n : Nat} {v v' : Word} (h : v.toNat % 2 ^ n = v'.toNat % 2 ^ n) : trunc n v = trunc n v' := by
  rw [trunc, trunc, h]

/-- Truncation leaves a value that fits. -/
theorem trunc_of_lt {n : Nat} {v : Word} (h : v.toNat < 2 ^ n) : trunc n v = v := by
  apply BitVec.eq_of_toNat_eq
  rw [trunc_toNat, Nat.mod_eq_of_lt h]

theorem trunc_toNat_lt (n : Nat) (v : Word) : (trunc n v).toNat < 2 ^ n := by
  rw [trunc_toNat]
  exact Nat.mod_lt _ (Nat.two_pow_pos n)

/-- A placed operand as rule R72 writes it. -/
theorem place_eq_ofNat (l : Layout) (f : CanField) (v : Word) :
    place l f v = BitVec.ofNat 32 (v.toNat % 2 ^ l.wd f * 2 ^ l.lo f) := by
  apply BitVec.eq_of_toNat_eq
  rw [place, BitVec.toNat_shiftLeft, trunc_toNat, Nat.shiftLeft_eq, BitVec.toNat_ofNat]

theorem place_zero (l : Layout) (f : CanField) : place l f 0#32 = 0#32 := by
  rw [place_eq_ofNat, BitVec.toNat_ofNat, Nat.zero_mod, Nat.zero_mul]

/-- Placing an operand above everything placed so far adds it, and fills the word up to the end of its field. -/
theorem or_place_toNat (l : Layout) (f : CanField) (v : Word) {acc : Word} (hacc : acc.toNat < 2 ^ l.lo f)
    (hfit : l.lo f + l.wd f ≤ 32) :
    (acc ||| place l f v).toNat = acc.toNat + v.toNat % 2 ^ l.wd f * 2 ^ l.lo f ∧
      (acc ||| place l f v).toNat < 2 ^ (l.lo f + l.wd f) := by
  have hv : v.toNat % 2 ^ l.wd f < 2 ^ l.wd f := Nat.mod_lt _ (Nat.two_pow_pos _)
  have hplace : v.toNat % 2 ^ l.wd f * 2 ^ l.lo f + 2 ^ l.lo f ≤ 2 ^ (l.lo f + l.wd f) := by
    rw [← Nat.succ_mul, Nat.pow_add, Nat.mul_comm (2 ^ l.lo f)]
    exact Nat.mul_le_mul_right _ hv
  have hword : 2 ^ (l.lo f + l.wd f) ≤ 2 ^ 32 := Nat.pow_le_pow_right (by decide) hfit
  have hsum : (acc ||| place l f v).toNat = acc.toNat + v.toNat % 2 ^ l.wd f * 2 ^ l.lo f := by
    rw [BitVec.toNat_or, place_eq_ofNat, BitVec.toNat_ofNat, Nat.mod_eq_of_lt (by omega), Nat.or_comm, Nat.mul_comm,
      ← Nat.two_pow_add_eq_or_of_lt hacc, Nat.add_comm]
  exact ⟨hsum, by omega⟩

/-! ## `pack` -/

/-- The key fact: a container bit carries the operand of the one field it belongs to. -/
theorem pack_getLsbD_of_holds {l : Layout} (hl : l.valid = true) (v : CanFields) {f : CanField} {i : Nat}
    (hf : l.holds f i = true) : (pack l v).getLsbD i = (v.get f).getLsbD (i - l.lo f) := by
  have hi : i < 32 := Layout.lt_of_holds hl hf
  rw [pack_getLsbD, Bool.eq_iff_iff, List.any_eq_true]
  simp only [place_getLsbD, hi, decide_true, Bool.true_and, Bool.and_eq_true]
  constructor
  · rintro ⟨g, -, hg, hbit⟩
    rwa [Layout.holds_unique hl hf hg]
  · exact fun hbit => ⟨f, CanField.mem_all f, hf, hbit⟩

/-- The same, with the bits of the field counted from its low bit. -/
theorem pack_getLsbD_field {l : Layout} (hl : l.valid = true) (v : CanFields) {f : CanField} {i : Nat} (hi : i < l.wd f) :
    (pack l v).getLsbD (l.lo f + i) = (v.get f).getLsbD i := by
  rw [pack_getLsbD_of_holds hl v (Layout.holds_lo_add hi), Nat.add_sub_cancel_left]

/-- Only the low bits of an operand count (rule R74), whatever the layout. -/
theorem pack_congr {l : Layout} {v v' : CanFields}
    (h : ∀ f, (v.get f).toNat % 2 ^ l.wd f = (v'.get f).toNat % 2 ^ l.wd f) : pack l v = pack l v' := by
  have hplace : ∀ f, place l f (v.get f) = place l f (v'.get f) := fun f => by rw [place, place, trunc_congr (h f)]
  simp only [pack, hplace]

@[simp] theorem CanFields.zero_get (f : CanField) : CanFields.zero.get f = 0#32 := by cases f <;> rfl

/-- Zero operands give the null id. -/
theorem pack_zero (l : Layout) : pack l .zero = 0#32 := by
  simp [pack, CanField.all, place_zero]

/-- Operands at their maxima fill the container, because a valid layout leaves no bit out. -/
theorem pack_max {l : Layout} (hl : l.valid = true) {v : CanFields} (hv : ∀ f, (v.get f).toNat = 2 ^ l.wd f - 1) :
    pack l v = 0xFFFFFFFF#32 := by
  have hones : 0xFFFFFFFF#32 = BitVec.allOnes 32 := rfl
  rw [hones]
  apply BitVec.eq_of_getLsbD_eq
  intro i hi
  obtain ⟨f, hf⟩ := Layout.exists_holds hl hi
  have hrange := (Layout.holds_iff l f i).mp hf
  rw [pack_getLsbD_of_holds hl v hf, BitVec.getLsbD, hv f, Nat.testBit_two_pow_sub_one, BitVec.getLsbD_allOnes,
    decide_eq_true hi]
  exact decide_eq_true (by omega)

/-- The default layout places its fields one above the other, so the OR is a sum (rule R72; the default is the spec's, log 3). -/
theorem pack_cidLayout_toNat (v : CanFields) : (pack Config.cidLayout v).toNat =
    v.sourceId.toNat % 256 + v.functionId.toNat % 16 * 2 ^ 8 + v.ack.toNat % 2 * 2 ^ 12 + v.destMac.toNat % 256 * 2 ^ 13 +
      v.srcMac.toNat % 256 * 2 ^ 21 + v.reserved.toNat % 8 * 2 ^ 29 := by
  have hempty : (0#32 : Word).toNat < 2 ^ Config.cidLayout.lo .sourceId := by decide
  obtain ⟨hsource, bsource⟩ := or_place_toNat Config.cidLayout .sourceId v.sourceId hempty (by decide)
  obtain ⟨hfunction, bfunction⟩ := or_place_toNat Config.cidLayout .functionId v.functionId bsource (by decide)
  obtain ⟨hack, back⟩ := or_place_toNat Config.cidLayout .ack v.ack bfunction (by decide)
  obtain ⟨hdest, bdest⟩ := or_place_toNat Config.cidLayout .destMac v.destMac back (by decide)
  obtain ⟨hsrc, bsrc⟩ := or_place_toNat Config.cidLayout .srcMac v.srcMac bdest (by decide)
  obtain ⟨hreserved, -⟩ := or_place_toNat Config.cidLayout .reserved v.reserved bsrc (by decide)
  refine hreserved.trans ?_
  rw [hsrc, hdest, hack, hfunction, hsource, BitVec.toNat_ofNat, Nat.zero_mod, Nat.zero_add,
    show Config.cidLayout.lo .sourceId = 0 from rfl, Nat.pow_zero, Nat.mul_one]
  rfl

/-! ## `unpack` -/

/-- An extracted field is the bits of its range, zero-extended (rule R73). -/
theorem extract_eq_extractLsb' (l : Layout) (f : CanField) (w : Word) :
    extract l f w = (w.extractLsb' (l.lo f) (l.wd f)).setWidth 32 := by
  apply BitVec.eq_of_getLsbD_eq
  intro i hi
  rw [extract_getLsbD, BitVec.getLsbD_setWidth, BitVec.getLsbD_extractLsb', decide_eq_true hi, Bool.true_and]

theorem unpack_zero (l : Layout) : unpack l 0#32 = .zero := by
  apply CanFields.ext_get
  intro f
  apply BitVec.eq_of_toNat_eq
  rw [unpack_get, extract_toNat, CanFields.zero_get, BitVec.toNat_ofNat, Nat.zero_mod, Nat.zero_div, Nat.zero_mod]

theorem CanFields.inRange_iff (v : CanFields) (l : Layout) : v.inRange l = true ↔ ∀ f, (v.get f).toNat < 2 ^ l.wd f := by
  rw [CanFields.inRange, List.all_eq_true]
  exact ⟨fun h f => of_decide_eq_true (h f (CanField.mem_all f)), fun h f _ => decide_eq_true (h f)⟩

/-- Every unpacked field fits its width. -/
theorem unpack_inRange (l : Layout) (w : Word) : (unpack l w).inRange l = true := by
  rw [CanFields.inRange_iff]
  intro f
  rw [unpack_get, extract]
  exact trunc_toNat_lt _ _

/-! ## The round trips -/

/-- A record comes back with its values truncated (rule R76 (b)). -/
theorem unpack_pack_get {l : Layout} (hl : l.valid = true) (v : CanFields) (f : CanField) :
    (unpack l (pack l v)).get f = trunc (l.wd f) (v.get f) := by
  apply BitVec.eq_of_getLsbD_eq
  intro i _
  rw [unpack_get, extract_getLsbD, trunc_getLsbD]
  by_cases hi : i < l.wd f
  · rw [pack_getLsbD_field hl v hi]
  · rw [decide_eq_false hi, Bool.false_and, Bool.false_and]

/-- An in-range record comes back (rule R76 (a)). -/
theorem unpack_pack {l : Layout} (hl : l.valid = true) {v : CanFields} (hv : v.inRange l = true) : unpack l (pack l v) = v := by
  apply CanFields.ext_get
  intro f
  rw [unpack_pack_get hl, trunc_of_lt ((CanFields.inRange_iff v l).mp hv f)]

/-- Every word comes back, because each of its bits belongs to a field (rule R76 (c)). -/
theorem pack_unpack {l : Layout} (hl : l.valid = true) (w : Word) : pack l (unpack l w) = w := by
  apply BitVec.eq_of_getLsbD_eq
  intro i hi
  obtain ⟨f, hf⟩ := Layout.exists_holds hl hi
  obtain ⟨hlo, hhi⟩ := (Layout.holds_iff l f i).mp hf
  have hoffset : i - l.lo f < l.wd f := by omega
  rw [pack_getLsbD_of_holds hl _ hf, unpack_get, extract_getLsbD, decide_eq_true hoffset, Bool.true_and, Nat.add_sub_cancel' hlo]

/-- Settles O14, from the two round trips, the truncated form of the first, and the range of what `unpack` gives. -/
theorem containerRoundTrips : Obligations.ContainerRoundTrips := by
  intro l hl
  refine ⟨fun v hv => unpack_pack hl hv, fun v f => ?_, pack_unpack hl, unpack_inRange l⟩
  rw [unpack_pack_get hl, trunc_toNat]

/-- Settles O9: each placed operand as a number, the bit rule of `pack`, and the sum that the default layout makes of the OR. -/
theorem packPlacesFields : Obligations.PackPlacesFields := by
  refine ⟨fun l v => ?_, fun l v hl f i hi => pack_getLsbD_field hl v hi, pack_cidLayout_toNat⟩
  simp only [pack, place_eq_ofNat]

/-- Settles O10, from an extracted field as a number and as a bit range. -/
theorem unpackExtractsFields : Obligations.UnpackExtractsFields := by
  refine ⟨fun l w f => ?_, fun w => ?_⟩
  · rw [unpack_get, extract_toNat]
  · simp only [unpack, extract_eq_extractLsb']
    rfl

end Sys2Proof.Machine
end

section
/-! PROOF. The two operations of the CAN-ID codec and the auxiliary outputs (41_canid.md rules R74, R75, R77, R78). -/

namespace Sys2Proof.Machine

theorem decode_cidPack (a : Byte) (w : Word) (v : CanFields) (p : List Byte) :
    decode (.command (commandWord 0x4#4 a) w v p) = .ok (.cidPack v) := by
  simp [decode, decodeCommand]

theorem decode_cidUnpack (a : Byte) (w : Word) (f : CanFields) (p : List Byte) :
    decode (.command (commandWord 0x5#4 a) w f p) = .ok (.cidUnpack w) := by
  simp [decode, decodeCommand]

theorem exec_cidPack (v : CanFields) (s : State) : exec (.cidPack v) s = .next (s.give (.rw (pack s.cidLayout v))) := rfl

theorem exec_cidUnpack (w : Word) (s : State) :
    exec (.cidUnpack w) s = .next (s.give (.unpacked (unpackResults s.cidLayout w))) := rfl

/-! ## The auxiliary outputs -/

theorem idNull_iff (w : Word) : idNull w = true ↔ w = 0x00000000#32 := beq_iff_eq

theorem usHit_iff (m : Word) : usHit m = true ↔ 0x60 ≤ m.toNat ∧ m.toNat ≤ 0x6F := by
  simp [usHit, Config.usMacBase, Config.usMacLast]

/-- The base address is a multiple of 16, so `us_unit` is the address modulo 16, in the range and outside it (decision D36). -/
theorem usUnit_toNat (m : Word) : (usUnit m).toNat = m.toNat % 16 := by
  have hm := m.isLt
  simp only [usUnit, Config.usMacBase, BitVec.toNat_setWidth, BitVec.toNat_sub, BitVec.toNat_ofNat]
  omega

/-- `us_unit` as the pseudocode of rule R75 computes it, over the integers. -/
theorem usUnit_eq_ofInt (m : Word) : usUnit m = BitVec.ofInt 4 ((m.toNat : Int) - 0x60) := by
  apply BitVec.eq_of_toNat_eq
  rw [usUnit_toNat, BitVec.toNat_ofInt]
  omega

theorem usUnit_eq_extractLsb' (m : Word) : usUnit m = m.extractLsb' 0 4 := by
  apply BitVec.eq_of_toNat_eq
  rw [usUnit_toNat, BitVec.extractLsb'_toNat, Nat.shiftRight_zero]

/-- Inside the range `us_unit` is the distance from its first address. -/
theorem usUnit_toNat_of_usHit {m : Word} (h : usHit m = true) : (usUnit m).toNat = m.toNat - 0x60 := by
  obtain ⟨hlow, hhigh⟩ := (usHit_iff m).mp h
  rw [usUnit_toNat]
  omega

/-- The results of `CID.UNPACK` as the pseudocode of rule R75 writes them. -/
theorem unpackResults_eq (l : Layout) (w : Word) : unpackResults l w =
    { fields := unpack l w
      idNull := decide (w = 0x00000000#32)
      usHit := decide (0x60 ≤ (unpack l w).srcMac.toNat ∧ (unpack l w).srcMac.toNat ≤ 0x6F)
      usUnit := BitVec.ofInt 4 (((unpack l w).srcMac.toNat : Int) - 0x60) } := by
  have hnull : idNull w = decide (w = 0x00000000#32) := beq_eq_decide w _
  have hhit : usHit (unpack l w).srcMac = decide (0x60 ≤ (unpack l w).srcMac.toNat ∧ (unpack l w).srcMac.toNat ≤ 0x6F) :=
    Bool.eq_iff_iff.mpr ((usHit_iff _).trans decide_eq_true_iff.symm)
  rw [unpackResults, hnull, hhit, usUnit_eq_ofInt]

/-! ## The obligations -/

/-- Settles O11, from the decoding and the effect of `CID.PACK` and the laws of `pack`; the two examples are evaluated. -/
theorem packReturnsContainer : Obligations.PackReturnsContainer :=
  fun a w p v s => ⟨decode_cidPack a w v p, exec_cidPack v s, pack_zero _, fun hl hv => pack_max hl hv,
    fun _ => pack_congr, by decide, by decide⟩

/-- Settles O12, from the decoding and the effect of `CID.UNPACK` and its results as the rule writes them; the example is
evaluated. -/
theorem unpackReturnsFields : Obligations.UnpackReturnsFields :=
  fun a w f p s => ⟨decode_cidUnpack a w f p, unpackResults_eq s.cidLayout w ▸ exec_cidUnpack w s, unpack_zero _, by decide⟩

/-- Settles O13: the results are those of `CID.UNPACK`, and each clause is the rule of one auxiliary output. -/
theorem nullIdAndAddressFilter : Obligations.NullIdAndAddressFilter := by
  intro w s
  refine ⟨unpackResults s.cidLayout w, exec_cidUnpack w s, idNull_iff w, ?_, usHit_iff _, usUnit_toNat_of_usHit,
    usUnit_eq_extractLsb' _, ?_⟩
  · rintro rfl
    rfl
  · rintro (h | h)
    · exact (congrArg usHit h).trans (by decide)
    · exact (congrArg usHit h).trans (by decide)

end Sys2Proof.Machine
end

section
/-! PROOF. An encoded frame under the parser: a decode attempt on a whole frame takes it, one on a beginning of a frame waits, and the
beginnings of a quiescent queue are quiescent (42_frame_tx.md rules R89, R92; 43_frame_rx.md rules R96, R106). -/

namespace Sys2Proof.Machine

/-! ## Quiescent queues -/

/-- A decode attempt on a quiescent queue changes nothing (rule R106). -/
theorem Quiescent.decode1_eq {q : List Byte} (h : Quiescent q) : decode1 q = (.needMoreData, q) := by
  obtain ⟨form, hform⟩ := h
  cases form with
  | q0 => cases hform; rfl
  | q1 => cases hform; rfl
  | q2 =>
    obtain ⟨len, body, rfl, hmin, hlen⟩ := hform
    simp only [List.length_cons] at hlen
    rw [decode1, scanHead_head, decodeCandidate_cons, if_neg hmin.not_gt, if_pos (by omega)]
  | q3 =>
    obtain ⟨len, body, rfl, hmin, hlen, hchk⟩ := hform
    simp only [List.length_cons] at hlen
    have hidx : len.toNat + 1 = len.toNat - 1 + 2 := by
      have : 2 ≤ len.toNat := hmin
      omega
    have hsum : body[len.toNat - 1]? = some (checksum (body.take (len.toNat - 1))) := by
      rwa [slice_two _ _ _ _ hmin, hidx, List.getElem?_cons_succ, List.getElem?_cons_succ] at hchk
    rw [decode1, scanHead_head, decodeCandidate_cons, if_neg hmin.not_gt, if_neg (by omega), if_neg (not_not.mpr hsum),
      if_pos (by omega)]

/-- The forms of rule R106 with Q2 and Q3 taken together: of a candidate the queue holds `CHK` at most. -/
theorem Quiescent.shape {q : List Byte} (h : Quiescent q) :
    q = [] ∨ q = [Config.head] ∨
    ∃ len body, q = Config.head :: len :: body ∧ Config.minLen ≤ len.toNat ∧ body.length ≤ len.toNat := by
  obtain ⟨form, hform⟩ := h
  cases form with
  | q0 => exact .inl hform
  | q1 => exact .inr (.inl hform)
  | q2 =>
    obtain ⟨len, body, rfl, hmin, hlen⟩ := hform
    simp only [List.length_cons] at hlen
    exact .inr (.inr ⟨len, body, rfl, hmin, by omega⟩)
  | q3 =>
    obtain ⟨len, body, rfl, hmin, hlen, -⟩ := hform
    simp only [List.length_cons] at hlen
    exact .inr (.inr ⟨len, body, rfl, hmin, by omega⟩)

/-- Every beginning of a quiescent queue is quiescent: a shorter one still waits for its `LEN` or its `CHK` byte. -/
theorem Quiescent.of_append {q rest : List Byte} (h : Quiescent (q ++ rest)) : Quiescent q := by
  by_cases hrest : rest = []
  · rwa [hrest, List.append_nil] at h
  have hpos := List.length_pos_iff.mpr hrest
  obtain heq | heq | ⟨len, body, heq, hmin, hlen⟩ := h.shape
  · rw [(List.append_eq_nil_iff.mp heq).1]
    exact quiescent_nil
  · obtain ⟨rfl, -⟩ | ⟨-, rfl⟩ := List.append_eq_singleton_iff.mp heq
    · exact quiescent_nil
    · exact absurd rfl hrest
  match q with
  | [] => exact quiescent_nil
  | [b] =>
    obtain ⟨rfl, -⟩ := List.cons_eq_cons.mp heq
    exact ⟨.q1, rfl⟩
  | b :: len' :: begun =>
    simp only [List.cons_append, List.cons.injEq] at heq
    obtain ⟨rfl, rfl, rfl⟩ := heq
    rw [List.length_append] at hlen
    exact ⟨.q2, len', begun, rfl, hmin, by simp only [List.length_cons]; omega⟩

/-! ## The bytes of a frame -/

/-- A decode attempt on a queue that begins with a whole frame takes exactly that frame. -/
theorem decode1_encodeFrame_append (t : Byte) (p rest : List Byte) (hp : p.length ≤ 253) :
    decode1 (encodeFrame t p ++ rest) = (.frame t p, rest) := by
  have hmin : Config.minLen = 2 := rfl
  rw [encodeFrame_eq, List.cons_append, List.cons_append, List.cons_append, decode1, scanHead_head, decodeCandidate_cons,
    lenByte_toNat _ hp]
  simp [hmin]

theorem decode1_encodeFrame (t : Byte) (p : List Byte) (hp : p.length ≤ 253) : decode1 (encodeFrame t p) = (.frame t p, []) := by
  rw [← decode1_encodeFrame_append t p [] hp, List.append_nil]

/-- A frame up to its tail, and its tail. -/
theorem encodeFrame_eq_concat (t : Byte) (p : List Byte) : encodeFrame t p =
    (Config.head :: BitVec.ofNat 8 (p.length + Config.lenOverhead) :: (t :: p ++ [checksum (t :: p)])) ++ [Config.tail] := by
  simp [encodeFrame_eq]

theorem encodeFrame_dropLast (t : Byte) (p : List Byte) : (encodeFrame t p).dropLast =
    Config.head :: BitVec.ofNat 8 (p.length + Config.lenOverhead) :: (t :: p ++ [checksum (t :: p)]) := by
  rw [encodeFrame_eq_concat, List.dropLast_concat]

theorem encodeFrame_dropLast_append_tail (t : Byte) (p : List Byte) : (encodeFrame t p).dropLast ++ [Config.tail] = encodeFrame t p := by
  rw [encodeFrame_dropLast, ← encodeFrame_eq_concat]

/-- A frame that lacks only its tail is in form Q3. -/
theorem quiescent_encodeFrame_dropLast (t : Byte) (p : List Byte) (hp : p.length ≤ 253) : Quiescent (encodeFrame t p).dropLast := by
  have hlen := lenByte_toNat p.length hp
  rw [encodeFrame_dropLast]
  refine ⟨.q3, _, _, rfl, ?_, ?_, ?_⟩
  · rw [hlen]; exact Nat.le_add_left _ _
  · simp [hlen]
  · rw [hlen, slice_two _ _ _ _ (Nat.le_add_left _ _)]
    simp

/-! ## Pushes of the bytes of a frame -/

theorem rxFeed_append (a b : List Byte) : rxFeed (a ++ b) = rxFeed a ++ rxFeed b := List.map_append

theorem exec_rxPush (b : Byte) (s : State) :
    exec (.rxPush b) s = .next ((s.setRxq (pushByte s.rxq b).2).give (.events (pushByte s.rxq b).1)) := rfl

/-- The loop stops at an attempt that waits. -/
theorem drain_of_needMoreData {turns : Nat} {q q' : List Byte} (h : decode1 q = (.needMoreData, q')) :
    drain (turns + 1) q = ([], q') := by
  simp [drain, h]

/-- The loop goes on after an accepted frame, whose event comes first. -/
theorem drain_of_frame {turns : Nat} {q q' p : List Byte} {t : Byte} (h : decode1 q = (.frame t p, q')) :
    drain (turns + 1) q = firstEvent (dispatch t p) (drain turns q') := by
  simp [drain, h]

/-- Below the bound a push appends the byte and runs the loop (rule R100). -/
theorem pushByte_of_lt {q : List Byte} (b : Byte) (h : q.length < 256) : pushByte q b = drain (q.length + 2) (q ++ [b]) :=
  (pushByte_cases q b).elim (fun ⟨hfull, _⟩ => absurd hfull (by omega)) And.right

/-- A byte that makes the queue a quiescent one is only buffered, and the push is silent. -/
theorem pushByte_of_quiescent {q : List Byte} {b : Byte} (hlen : q.length < 256) (h : Quiescent (q ++ [b])) :
    pushByte q b = ([], q ++ [b]) :=
  (pushByte_of_lt b hlen).trans (drain_of_needMoreData h.decode1_eq)

/-- The push of the tail into a queue that holds the rest of one frame delivers the frame and empties the queue. -/
theorem pushByte_tail (t : Byte) (p : List Byte) (hp : p.length ≤ 251) :
    pushByte (encodeFrame t p).dropLast Config.tail = ([dispatch t p], []) := by
  have hlen : (encodeFrame t p).dropLast.length < 256 := by
    rw [List.length_dropLast, encodeFrame_length]
    omega
  rw [pushByte_of_lt _ hlen, encodeFrame_dropLast_append_tail, drain_of_frame (decode1_encodeFrame t p (by omega)),
    drain_of_needMoreData quiescent_nil.decode1_eq, firstEvent]

/-- Bytes that the queue can hold and that make it, at their end, a quiescent one are buffered one by one, with no event. -/
theorem runInstrs_rxFeed_append_of_quiescent (bytes : List Byte) (is : List Instr) (s : State)
    (hlen : s.rxq.length + bytes.length ≤ 256) (h : Quiescent (s.rxq ++ bytes)) :
    runInstrs (rxFeed bytes ++ is) s =
      runInstrs is { s with rxq := s.rxq ++ bytes, out := s.out ++ List.replicate bytes.length (.events []) } := by
  induction bytes generalizing s with
  | nil => simp [rxFeed]
  | cons b bytes ih =>
    rw [List.length_cons] at hlen
    rw [← List.singleton_append, ← List.append_assoc] at h
    have hpush : exec (.rxPush b) s = .next ((s.setRxq (s.rxq ++ [b])).give (.events [])) := by
      rw [exec_rxPush, pushByte_of_quiescent (by omega) h.of_append]
    have hrest := ih ((s.setRxq (s.rxq ++ [b])).give (.events [])) (by simp; omega) h
    rw [rxFeed, List.map_cons, List.cons_append, runInstrs_cons _ _ _ _ hpush]
    refine hrest.trans (congrArg (runInstrs is) ?_)
    ext1 <;> simp [List.replicate_succ]

/-! ## The obligations -/

/-- Settles O18: the frame up to its tail is quiescent, so its bytes are buffered silently, and the push of the tail delivers it. -/
theorem frameRoundTrip : Obligations.FrameRoundTrip := by
  intro t p s hp hempty
  have hlen : (encodeFrame t p).dropLast.length = p.length + 4 := by simp
  have hquiet : Quiescent (s.rxq ++ (encodeFrame t p).dropLast) := by
    rw [hempty]; exact quiescent_encodeFrame_dropLast t p (by omega)
  calc runInstrs (rxFeed (encodeFrame t p)) s
      = runInstrs (rxFeed (encodeFrame t p).dropLast ++ [.rxPush Config.tail]) s := by
        rw [← encodeFrame_dropLast_append_tail, rxFeed_append, encodeFrame_dropLast_append_tail]
        rfl
    _ = runInstrs [.rxPush Config.tail] { s with
          rxq := (encodeFrame t p).dropLast, out := s.out ++ List.replicate (p.length + 4) (.events []) } := by
        rw [runInstrs_rxFeed_append_of_quiescent _ _ _ (by rw [hempty, hlen, List.length_nil]; omega) hquiet, hlen, hempty,
          List.nil_append]
    _ = .next { s with out := s.out ++ List.replicate (p.length + 4) (.events []) ++ [.events [dispatch t p]] } := by
        rw [runInstrs_cons _ _ _ _ (exec_rxPush _ _), runInstrs_nil, pushByte_tail t p hp, ← hempty]
        rfl

/-- Settles O17: a decode attempt gives back the type and the payload. -/
theorem encodeInjective : Obligations.EncodeInjective := by
  intro t t' p p' hp hp' heq
  have hframe : (Verdict.frame t p, ([] : List Byte)) = (.frame t' p', []) := by
    rw [← decode1_encodeFrame t p hp, heq, decode1_encodeFrame t' p' hp']
  simpa using hframe

end Sys2Proof.Machine
end

section
/-! PROOF. The operation of the frame encoder (42_frame_tx.md rules R86, R87). -/

namespace Sys2Proof.Machine

theorem decode_txEnc (t : Byte) (w : Word) (f : CanFields) (p : List Byte) :
    decode (.command (commandWord 0x8#4 t) w f p) = .ok (.txEnc t p) := by
  simp [decode, decodeCommand]

theorem exec_txEnc (t : Byte) (p : List Byte) (s : State) : exec (.txEnc t p) s = .next (s.give (txResult t p)) := rfl

/-- Within `MAX_PAYLOAD` the encoder gives the frame. -/
theorem txResult_of_le {t : Byte} {p : List Byte} (hp : p.length ≤ 251) : txResult t p = .txo (encodeFrame t p) :=
  (txResult_cases t p).elim And.right fun ⟨hlong, _⟩ => absurd hlong (by omega)

/-- Beyond `MAX_PAYLOAD` it gives the error event and no byte. -/
theorem txResult_of_gt {t : Byte} {p : List Byte} (hp : 251 < p.length) : txResult t p = .events [.txTooLong p.length] :=
  (txResult_cases t p).elim (fun ⟨hshort, _⟩ => absurd hshort (by omega)) And.right

/-- Settles O16, from the decoding and the effect of `TX.ENC` and what it gives on each side of the limit. -/
theorem encodeReturnsFrame : Obligations.EncodeReturnsFrame :=
  fun t p w f s => ⟨decode_txEnc t w f p, fun hp => ⟨rfl, lenByte_toNat p.length hp, encodeFrame_length t p⟩,
    fun hp => txResult_of_le (t := t) hp ▸ exec_txEnc t p s, fun hp => txResult_of_gt (t := t) hp ▸ exec_txEnc t p s⟩

end Sys2Proof.Machine
end

section
/-! PROOF. One decode attempt and the loop of `RX.PUSH`: which bytes an attempt takes from the queue, and the bounded loop of the model
as the unbounded one of the rule (43_frame_rx.md rules R95, R100 to R104). -/

namespace Sys2Proof.Machine

/-! ## The bytes that an attempt takes -/

/-- An attempt that waits has only dropped bytes from the front. -/
theorem append_of_decode1_needMoreData {q q' : List Byte} (h : decode1 q = (.needMoreData, q')) : ∃ noise, q = noise ++ q' := by
  obtain ⟨noise, q0, hq, -, ⟨-, hd⟩ | ⟨r, q1, -, hd⟩ | ⟨t, p, q1, -, -, hd⟩⟩ := decode1_cases q
  · rw [h] at hd
    cases hd
    exact ⟨noise, hq⟩
  · simp [h] at hd
  · simp [h] at hd

/-- A failed candidate loses its `HEAD` and no byte behind it. -/
theorem append_of_decode1_invalid {q q' : List Byte} {r : Reason} (h : decode1 q = (.invalid r, q')) :
    ∃ noise, q = noise ++ Config.head :: q' := by
  obtain ⟨noise, q0, hq, -, ⟨-, hd⟩ | ⟨r', q1, hq0, hd⟩ | ⟨t, p, q1, -, -, hd⟩⟩ := decode1_cases q
  · simp [h] at hd
  · rw [h] at hd
    cases hd
    exact ⟨noise, hq0 ▸ hq⟩
  · simp [h] at hd

/-- An accepted candidate is taken with exactly the wire bytes of its frame. -/
theorem append_of_decode1_frame {q q' p : List Byte} {t : Byte} (h : decode1 q = (.frame t p, q')) :
    ∃ noise, q = noise ++ (encodeFrame t p ++ q') := by
  obtain ⟨noise, q0, hq, -, ⟨-, hd⟩ | ⟨r, q1, -, hd⟩ | ⟨t', p', q1, -, hq0, hd⟩⟩ := decode1_cases q
  · simp [h] at hd
  · simp [h] at hd
  · rw [h] at hd
    cases hd
    exact ⟨noise, hq0 ▸ hq⟩

theorem length_of_decode1_invalid {q q' : List Byte} {r : Reason} (h : decode1 q = (.invalid r, q')) : q'.length + 1 ≤ q.length :=
  decode1_length_lt q q' _ h (by simp)

/-- An accepted frame takes its payload and the five bytes around it. -/
theorem length_of_decode1_frame {q q' p : List Byte} {t : Byte} (h : decode1 q = (.frame t p, q')) :
    q'.length + (p.length + 5) ≤ q.length := by
  obtain ⟨noise, rfl⟩ := append_of_decode1_frame h
  simp only [List.length_append, encodeFrame_length]
  omega

/-! ## The loop -/

/-- The loop goes on after a failed candidate, whose event comes first. -/
theorem drain_of_invalid {turns : Nat} {q q' : List Byte} {r : Reason} (h : decode1 q = (.invalid r, q')) :
    drain (turns + 1) q = firstEvent (reasonEvent r) (drain turns q') := by
  simp [drain, h]

/-- With a turn for every byte and one to stop, the bounded loop is a run of the unbounded one (log 11). -/
theorem drains_drain (turns : Nat) (q : List Byte) (h : q.length < turns) : Drains q (drain turns q).1 (drain turns q).2 := by
  induction turns generalizing q with
  | zero => omega
  | succ turns ih =>
    match hd : decode1 q with
    | (.needMoreData, q') =>
      rw [drain_of_needMoreData hd]
      exact .stop q q' hd
    | (.invalid r, q') =>
      have hlen := length_of_decode1_invalid hd
      rw [drain_of_invalid hd]
      exact .invalid q q' _ r _ hd (ih q' (by omega))
    | (.frame t p, q') =>
      have hlen := length_of_decode1_frame hd
      rw [drain_of_frame hd]
      exact .frame q q' _ t p _ hd (ih q' (by omega))

/-- Every run of the unbounded loop is the bounded one, so the loop has one end only. -/
theorem Drains.drain_eq {q q' : List Byte} {evs : List Event} (h : Drains q evs q') (turns : Nat) (hturns : q.length < turns) :
    drain turns q = (evs, q') := by
  induction h generalizing turns with
  | stop q q' hd =>
    obtain ⟨k, rfl⟩ := Nat.exists_eq_add_one_of_ne_zero (Nat.ne_zero_of_lt hturns)
    exact drain_of_needMoreData hd
  | invalid q q' q'' r evs hd _ ih =>
    obtain ⟨k, rfl⟩ := Nat.exists_eq_add_one_of_ne_zero (Nat.ne_zero_of_lt hturns)
    have hlen := length_of_decode1_invalid hd
    rw [drain_of_invalid hd, ih k (by omega), firstEvent]
  | frame q q' q'' t p evs hd _ ih =>
    obtain ⟨k, rfl⟩ := Nat.exists_eq_add_one_of_ne_zero (Nat.ne_zero_of_lt hturns)
    have hlen := length_of_decode1_frame hd
    rw [drain_of_frame hd, ih k (by omega), firstEvent]

/-- Every event of the loop costs the queue a byte at least (rule R102). -/
theorem Drains.length_add_length_le {q q' : List Byte} {evs : List Event} (h : Drains q evs q') :
    evs.length + q'.length ≤ q.length := by
  induction h with
  | stop q q' hd =>
    obtain ⟨noise, rfl⟩ := append_of_decode1_needMoreData hd
    simp
  | invalid q q' q'' r evs hd _ ih =>
    have hlen := length_of_decode1_invalid hd
    rw [List.length_cons]
    omega
  | frame q q' q'' t p evs hd _ ih =>
    have hlen := length_of_decode1_frame hd
    rw [List.length_cons]
    omega

/-! ## The push -/

/-- A push into a full queue overflows (rule R101). -/
theorem pushByte_of_le {q : List Byte} (b : Byte) (h : 256 ≤ q.length) : pushByte q b = ([.overflow], []) :=
  (pushByte_cases q b).elim And.right fun ⟨hlt, _⟩ => absurd hlt (by omega)

/-- Below the bound a push is a run of the loop on the queue with the byte appended (rule R100). -/
theorem drains_pushByte {q : List Byte} (b : Byte) (h : q.length < 256) :
    Drains (q ++ [b]) (pushByte q b).1 (pushByte q b).2 := by
  rw [pushByte_of_lt b h]
  exact drains_drain _ _ (by simp)

/-- Every run of the loop on the queue with the byte appended is the push. -/
theorem Drains.pushByte_eq {q q' : List Byte} {b : Byte} {evs : List Event} (h : Drains (q ++ [b]) evs q') (hq : q.length < 256) :
    pushByte q b = (evs, q') :=
  (pushByte_of_lt b hq).trans (h.drain_eq _ (by simp))

/-- One push gives at most 256 events, from any queue. -/
theorem pushByte_events_length_le (q : List Byte) (b : Byte) : (pushByte q b).1.length ≤ 256 := by
  by_cases hq : q.length < 256
  · have hlen := (drains_pushByte b hq).length_add_length_le
    rw [List.length_append, List.length_singleton] at hlen
    omega
  · rw [pushByte_of_le b (by omega), List.length_singleton]
    omega

theorem decode_rxPush (b : Byte) (w : Word) (f : CanFields) (p : List Byte) :
    decode (.command (commandWord 0xC#4 b) w f p) = .ok (.rxPush b) := by
  simp [decode, decodeCommand]

theorem decode_rxFlush (a : Byte) (w : Word) (f : CanFields) (p : List Byte) :
    decode (.command (commandWord 0xD#4 a) w f p) = .ok .rxFlush := by
  simp [decode, decodeCommand]

theorem exec_rxFlush (s : State) : exec .rxFlush s = .next (s.setRxq []) := rfl

/-! ## The obligations -/

/-- Settles O20: below the bound the push is the one run of the loop, at the bound it overflows. -/
theorem pushRunsDecodeLoop : Obligations.PushRunsDecodeLoop := by
  intro b w f p s
  have hword : commandWord 0xC#4 b = BitVec.ofNat 12 (0xC00 + b.toNat) := commandWord_eq_ofNat 0xC#4 b
  refine ⟨hword ▸ decode_rxPush b w f p, fun hlt => ?_, fun hfull => ?_⟩
  · exact ⟨_, _, drains_pushByte b hlt, fun evs' q'' h => Prod.mk.inj (h.pushByte_eq hlt).symm, exec_rxPush b s⟩
  · rw [exec_rxPush, pushByte_of_le b hfull.ge]
    rfl

/-- Settles O21, from the bytes that an attempt takes and the events that the loop gives for them. -/
theorem decodeLoopEnds : Obligations.DecodeLoopEnds := by
  refine ⟨fun q q' r h => length_of_decode1_invalid h, fun q q' p t h => ?_, fun q => ?_, fun b s _ => ?_⟩
  · have hlen := length_of_decode1_frame h
    omega
  · have hdrains := drains_drain (q.length + 1) q (Nat.lt_succ_self _)
    exact ⟨_, _, hdrains, (Nat.le_add_right _ _).trans hdrains.length_add_length_le⟩
  · exact ⟨_, _, exec_rxPush b s, rfl, pushByte_events_length_le s.rxq b⟩

/-- Settles O22, from the decoding and the effect of `RX.FLUSH`. -/
theorem flushEmptiesQueue : Obligations.FlushEmptiesQueue :=
  fun a w f p s => ⟨by decide, decode_rxFlush a w f p, exec_rxFlush s⟩

end Sys2Proof.Machine
end

section
/-! PROOF. Conservation of bytes: the wire bytes of the accepted frames and the bytes still buffered stand in the received stream, in
order and apart, over a decode loop, an operation, a step, and so over any run (43_frame_rx.md rule R108). -/

namespace Sys2Proof.Machine

/-! ## Byte strings in order -/

/-- Further bytes before the stream are discarded ones. -/
theorem HoldsInOrder.prepend {fs : List (List Byte)} {rest q : List Byte} (gap : List Byte) (h : HoldsInOrder fs rest q) :
    HoldsInOrder fs rest (gap ++ q) := by
  cases fs with
  | nil =>
    obtain ⟨gap', rfl⟩ := h
    exact ⟨gap ++ gap', (List.append_assoc _ _ _).symm⟩
  | cons f fs =>
    obtain ⟨gap', q', rfl, hq'⟩ := h
    exact ⟨gap ++ gap', q', by simp only [List.append_assoc], hq'⟩

/-- What is still held of one stream is the beginning of the next one. -/
theorem HoldsInOrder.append {fs gs : List (List Byte)} {mid rest q more : List Byte} (h : HoldsInOrder fs mid q)
    (hmore : HoldsInOrder gs rest (mid ++ more)) : HoldsInOrder (fs ++ gs) rest (q ++ more) := by
  induction fs generalizing q with
  | nil =>
    obtain ⟨gap, rfl⟩ := h
    rw [List.append_assoc]
    exact hmore.prepend gap
  | cons f fs ih =>
    obtain ⟨gap, q', rfl, hq'⟩ := h
    exact ⟨gap, q' ++ more, List.append_assoc _ _ _, ih hq'⟩

/-! ## The loop and the push -/

theorem acceptedBytes_reasonEvent (r : Reason) : acceptedBytes (reasonEvent r) = none := by
  cases r <;> rfl

theorem acceptedBytes_dispatch (t : Byte) (p : List Byte) : acceptedBytes (dispatch t p) = some (encodeFrame t p) := rfl

/-- The loop conserves the bytes of its queue: each attempt drops bytes from the front or takes one frame. -/
theorem Drains.holdsInOrder {q q' : List Byte} {evs : List Event} (h : Drains q evs q') :
    HoldsInOrder (evs.filterMap acceptedBytes) q' q := by
  induction h with
  | stop q q' hd => exact append_of_decode1_needMoreData hd
  | invalid q q' q'' r evs hd _ ih =>
    obtain ⟨noise, rfl⟩ := append_of_decode1_invalid hd
    rw [List.filterMap_cons_none (acceptedBytes_reasonEvent r), List.append_cons]
    exact ih.prepend _
  | frame q q' q'' t p evs hd _ ih =>
    obtain ⟨noise, rfl⟩ := append_of_decode1_frame hd
    rw [List.filterMap_cons_some (acceptedBytes_dispatch t p)]
    exact ⟨noise, q', (List.append_assoc _ _ _).symm, ih⟩

/-- A push conserves the queue with the byte appended; an overflow discards all of it. -/
theorem pushByte_holdsInOrder (q : List Byte) (b : Byte) :
    HoldsInOrder ((pushByte q b).1.filterMap acceptedBytes) (pushByte q b).2 (q ++ [b]) := by
  by_cases hq : q.length < 256
  · exact (drains_pushByte b hq).holdsInOrder
  · rw [pushByte_of_le b (by omega)]
    exact ⟨q ++ [b], (List.append_nil _).symm⟩

/-! ## Runs -/

/-- From the first state to the second the block has received the bytes and has conserved them. -/
def Conserves (s : State) (received : List Byte) (t : State) : Prop :=
  ∃ outs, t.out = s.out ++ outs ∧ HoldsInOrder ((eventsOf outs).filterMap acceptedBytes) t.rxq (s.rxq ++ received)

theorem Conserves.trans {s t u : State} {xs ys : List Byte} (h : Conserves s xs t) (h' : Conserves t ys u) :
    Conserves s (xs ++ ys) u := by
  obtain ⟨outs, hout, hheld⟩ := h
  obtain ⟨outs', hout', hheld'⟩ := h'
  refine ⟨outs ++ outs', by rw [hout', hout, List.append_assoc], ?_⟩
  rw [eventsOf_append, List.filterMap_append, ← List.append_assoc]
  exact hheld.append hheld'

/-- Nothing received, no frame accepted, and of the queue only bytes at the front discarded. -/
theorem Conserves.of_no_frame {s t : State} {outs : List Output} (gap : List Byte) (hout : t.out = s.out ++ outs)
    (hnone : (eventsOf outs).filterMap acceptedBytes = []) (hq : s.rxq = gap ++ t.rxq) : Conserves s [] t := by
  refine ⟨outs, hout, ?_⟩
  rw [hnone, List.append_nil]
  exact ⟨gap, hq⟩

theorem Conserves.refl (s : State) : Conserves s [] s := .of_no_frame (outs := []) [] (by simp) rfl rfl

/-- The byte that an operation adds to the received stream. -/
def pushedByte : Instr → Option Byte
  | .rxPush b => some b
  | _ => none

/-- Every operation conserves the bytes; what it adds to the stream is the byte it pushes. A dispatch outcome is no operation of the
environment: its frame's bytes come through the pushes (log 6). -/
theorem exec_conserves (i : Instr) (s : State) (h : unitOf i ≠ .dsp) :
    ∃ t, exec i s = .next t ∧ t.pending = s.pending ∧ Conserves s (pushedByte i).toList t := by
  cases i with
  | rxPush b =>
    refine ⟨_, exec_rxPush b s, rfl, [.events (pushByte s.rxq b).1], rfl, ?_⟩
    rw [eventsOf_events]
    exact pushByte_holdsInOrder s.rxq b
  | rxFlush => exact ⟨_, exec_rxFlush s, rfl, .of_no_frame (outs := []) s.rxq (by simp) rfl (by simp)⟩
  | txEnc t p =>
    refine ⟨_, exec_txEnc t p s, rfl, .of_no_frame [] (State.give_out _ _) ?_ rfl⟩
    obtain ⟨-, hres⟩ | ⟨-, hres⟩ := txResult_cases t p <;> rw [hres] <;> rfl
  | csClr => exact ⟨_, exec_csClr s, rfl, .of_no_frame (outs := []) [] (by simp) rfl rfl⟩
  | csAdd b => exact ⟨_, exec_csAdd b s, rfl, .of_no_frame (outs := []) [] (by simp) rfl rfl⟩
  | csGet => exact ⟨_, exec_csGet s, rfl, .of_no_frame [] (State.give_out _ _) rfl rfl⟩
  | csVfy e => exact ⟨_, exec_csVfy e s, rfl, .of_no_frame [] (State.give_out _ _) rfl rfl⟩
  | cidPack v => exact ⟨_, exec_cidPack v s, rfl, .of_no_frame [] (State.give_out _ _) rfl rfl⟩
  | cidUnpack w => exact ⟨_, exec_cidUnpack w s, rfl, .of_no_frame [] (State.give_out _ _) rfl rfl⟩
  | _ => exact absurd rfl h

/-- Pushes one after another conserve the bytes. -/
theorem runInstrs_rxFeed_conserves (bytes : List Byte) (s : State) :
    ∃ t, runInstrs (rxFeed bytes) s = .next t ∧ Conserves s bytes t := by
  induction bytes generalizing s with
  | nil => exact ⟨s, rfl, .refl s⟩
  | cons b bytes ih =>
    obtain ⟨t, hexec, -, hpush⟩ := exec_conserves (.rxPush b) s (by simp [unitOf])
    obtain ⟨u, hrun, hrest⟩ := ih t
    exact ⟨u, (runInstrs_cons _ _ _ _ hexec).trans hrun, hpush.trans hrest⟩

/-- No command decodes to a dispatch outcome (rule R9). -/
theorem unitOf_ne_dsp_of_decodeCommand {cmd : BitVec 12} {w : Word} {f : CanFields} {p : List Byte} {i : Instr}
    (h : decodeCommand cmd w f p = .ok i) : unitOf i ≠ .dsp := by
  unfold decodeCommand at h
  split at h <;> cases h <;> simp [unitOf]

theorem receivedByte_of_ok {cmd : BitVec 12} {w : Word} {f : CanFields} {p : List Byte} {i : Instr}
    (h : decodeCommand cmd w f p = .ok i) : receivedByte (.issue cmd w f p) = pushedByte i := by
  simp only [receivedByte, h]
  cases i <;> rfl

theorem receivedByte_of_error {cmd : BitVec 12} {w : Word} {f : CanFields} {p : List Byte} {op : BitVec 4}
    (h : decodeCommand cmd w f p = .error op) : receivedByte (.issue cmd w f p) = none := by
  simp only [receivedByte, h]

/-- Changing what is pending conserves the bytes. -/
theorem Conserves.of_setPending {s t : State} {received : List Byte} (l : List Input) (h : Conserves (s.setPending l) received t) :
    Conserves s received t := h

/-- A step that takes an input conserves the bytes. -/
theorem step_conserves (input : Input) (rest : List Input) (s : State) (h : s.pending = input :: rest) :
    ∃ t, step s = .next t ∧ t.pending = rest ∧ Conserves s (receivedByte input).toList t := by
  obtain ⟨hp, -⟩ | ⟨rest', hp, hf⟩ | ⟨cmd, w, f, p, rest', i, hp, hd, hf⟩ | ⟨cmd, w, f, p, rest', op, hp, hd, hf⟩ := fetch_cases s
  · simp [h] at hp
  all_goals
    rw [h] at hp
    obtain ⟨rfl, rfl⟩ := List.cons_eq_cons.mp hp
    rw [step, hf]
  · exact ⟨_, rfl, rfl, .of_no_frame (outs := []) s.rxq (by simp [applyReset]) rfl (by simp)⟩
  · obtain ⟨t, hexec, hpend, hkeep⟩ := exec_conserves i (s.setPending rest) (unitOf_ne_dsp_of_decodeCommand hd)
    rw [receivedByte_of_ok hd]
    exact ⟨t, hexec, hpend, hkeep.of_setPending rest⟩
  · rw [receivedByte_of_error hd]
    exact ⟨_, rfl, rfl, .of_no_frame [] (State.give_out _ _) rfl rfl⟩

/-- A step for each input conserves the bytes. -/
theorem runSteps_conserves (inputs rest : List Input) (s : State) (h : s.pending = inputs ++ rest) :
    ∃ t, runSteps inputs.length s = .next t ∧ t.pending = rest ∧ Conserves s (inputs.filterMap receivedByte) t := by
  induction inputs generalizing s with
  | nil => exact ⟨s, rfl, h, .refl s⟩
  | cons input inputs ih =>
    obtain ⟨t, hstep, hpend, hfirst⟩ := step_conserves input (inputs ++ rest) s h
    obtain ⟨u, hrun, hpend', hrest⟩ := ih t hpend
    have hreceived : (input :: inputs).filterMap receivedByte = (receivedByte input).toList ++ inputs.filterMap receivedByte := by
      cases hb : receivedByte input <;> simp [hb]
    rw [hreceived]
    exact ⟨u, (runSteps_succ _ _ _ hstep).trans hrun, hpend', hfirst.trans hrest⟩

/-! ## The obligation -/

/-- Settles O25, over runs of pushes and over runs of steps. -/
theorem conservationOfBytes : Obligations.ConservationOfBytes := by
  refine ⟨fun bytes s => ?_, fun inputs rest s h => ?_⟩
  · obtain ⟨t, hrun, outs, hout, hheld⟩ := runInstrs_rxFeed_conserves bytes s
    exact ⟨t, outs, hrun, hout, hheld⟩
  · obtain ⟨t, hrun, hpend, outs, hout, hheld⟩ := runSteps_conserves inputs rest s h
    exact ⟨t, outs, hrun, hpend, hout, hheld⟩

end Sys2Proof.Machine
end

section
/-! PROOF. The stream view: pushes one after another are `feed`, and `feed` goes on from the queue it left (43_frame_rx.md rule
R110). -/

namespace Sys2Proof.Machine

@[simp] theorem feed_nil (q : List Byte) : feed q [] = ([], q) := rfl

theorem feed_cons (q : List Byte) (b : Byte) (bs : List Byte) :
    feed q (b :: bs) = ((pushByte q b).1 ++ (feed (pushByte q b).2 bs).1, (feed (pushByte q b).2 bs).2) := rfl

theorem feed_append (q xs ys : List Byte) :
    feed q (xs ++ ys) = ((feed q xs).1 ++ (feed (feed q xs).2 ys).1, (feed (feed q xs).2 ys).2) := by
  induction xs generalizing q with
  | nil => rfl
  | cons b xs ih => rw [List.cons_append, feed_cons, ih, feed_cons, List.append_assoc]

/-- Pushes one after another leave the queue of `feed` and give its events, one list for each push. -/
theorem runInstrs_rxFeed (bytes : List Byte) (s : State) : ∃ outs,
    runInstrs (rxFeed bytes) s = .next { s with rxq := (feed s.rxq bytes).2, out := s.out ++ outs } ∧
    outs.length = bytes.length ∧ eventsOf outs = (feed s.rxq bytes).1 := by
  induction bytes generalizing s with
  | nil => exact ⟨[], by simp [rxFeed], rfl, rfl⟩
  | cons b bytes ih =>
    obtain ⟨outs, hrun, hlen, hevs⟩ := ih ((s.setRxq (pushByte s.rxq b).2).give (.events (pushByte s.rxq b).1))
    rw [State.give_rxq, State.setRxq_rxq] at hrun hevs
    refine ⟨[.events (pushByte s.rxq b).1] ++ outs, ?_, by simp [hlen], ?_⟩
    · refine (runInstrs_cons _ _ _ _ (exec_rxPush b s)).trans (hrun.trans (congrArg _ ?_))
      ext1 <;> simp [feed_cons]
    · rw [eventsOf_append, eventsOf_events, hevs, feed_cons]

/-- Settles O27: one push after another is the recursion of `feed`, and bursts are the recursion on the first burst. -/
theorem feedIsStreamView : Obligations.FeedIsStreamView :=
  ⟨runInstrs_rxFeed, feed_nil, feed_cons, feed_append⟩

end Sys2Proof.Machine
end

section
/-! PROOF. One decode attempt case by case, and the four quiescent forms: they are exclusive, each is the beginning of a frame, and
every operation leaves the queue in one (43_frame_rx.md rules R96, R106). -/

namespace Sys2Proof.Machine

/-! ## The cases of an attempt -/

/-- Bytes without a `HEAD` in front make no difference to an attempt (rule R97). -/
theorem decode1_append_of_noHead {noise : List Byte} (q : List Byte) (h : Config.head ∉ noise) :
    decode1 (noise ++ q) = decode1 q := by
  rw [decode1, scanHead_append_of_noHead noise q h, decode1]

/-- An attempt on a candidate, in the rule's order. -/
theorem decode1_candidate (len : Byte) (body : List Byte) : decode1 (Config.head :: len :: body) =
    if len.toNat < 2 then (.invalid .badLen, len :: body)
    else if body.length < len.toNat then (.needMoreData, Config.head :: len :: body)
    else if body[len.toNat - 1]? ≠ some (checksum (body.take (len.toNat - 1))) then (.invalid .badChk, len :: body)
    else if body.length < len.toNat + 1 then (.needMoreData, Config.head :: len :: body)
    else if body[len.toNat]? ≠ some Config.tail then (.invalid .badTail, len :: body)
    else (.frame (body.headD 0#8) ((body.drop 1).take (len.toNat - 2)), body.drop (len.toNat + 1)) := by
  rw [decode1, scanHead_head]
  exact decodeCandidate_cons Config.head len body

theorem decode1_badLen {len : Byte} (body : List Byte) (h : len.toNat < 2) :
    decode1 (Config.head :: len :: body) = (.invalid .badLen, len :: body) := by
  rw [decode1_candidate, if_pos h]

section Candidate

variable {len : Byte} {summed : List Byte} (hmin : 2 ≤ len.toNat)

include hmin

/-- A candidate that lacks its `CHK` byte is in form Q2. -/
theorem inForm_q2 {body : List Byte} (h : body.length < len.toNat) : InForm .q2 (Config.head :: len :: body) :=
  ⟨len, body, rfl, hmin, by simpa using h⟩

variable (hlen : summed.length + 1 = len.toNat)

include hlen

/-- A candidate that ends with its `CHK` byte, and that the right one, is in form Q3. -/
theorem inForm_q3 : InForm .q3 (Config.head :: len :: (summed ++ [checksum summed])) := by
  refine ⟨len, _, rfl, hmin, by simp [← hlen], ?_⟩
  rw [slice_two _ _ _ _ hmin, ← hlen]
  simp

theorem decode1_badChk {chk : Byte} (rest : List Byte) (h : checksum summed ≠ chk) :
    decode1 (Config.head :: len :: (summed ++ chk :: rest)) = (.invalid .badChk, len :: (summed ++ chk :: rest)) := by
  have hchk : (summed ++ chk :: rest)[len.toNat - 1]? ≠
      some (checksum ((summed ++ chk :: rest).take (len.toNat - 1))) := by
    simpa [← hlen] using Ne.symm h
  rw [decode1_candidate, if_neg (not_lt.mpr hmin), if_neg (by simp; omega), if_pos hchk]

theorem decode1_badTail {x : Byte} (more : List Byte) (h : x ≠ Config.tail) :
    decode1 (Config.head :: len :: (summed ++ checksum summed :: x :: more)) =
      (.invalid .badTail, len :: (summed ++ checksum summed :: x :: more)) := by
  have hchk : (summed ++ checksum summed :: x :: more)[len.toNat - 1]? =
      some (checksum ((summed ++ checksum summed :: x :: more).take (len.toNat - 1))) := by
    simp [← hlen]
  have htail : (summed ++ checksum summed :: x :: more)[len.toNat]? ≠ some Config.tail := by
    simpa [← hlen] using h
  rw [decode1_candidate, if_neg (not_lt.mpr hmin), if_neg (by simp; omega), if_neg (not_not.mpr hchk),
    if_neg (by simp; omega), if_pos htail]

end Candidate

/-- A candidate whose `LEN` counts its type, payload and `CHK` byte, all right, is a frame on the wire. -/
theorem candidate_eq_encodeFrame {len t : Byte} {p : List Byte} (hlen : (t :: p).length + 1 = len.toNat) :
    p.length ≤ 253 ∧ ∀ more, Config.head :: len :: (t :: p ++ checksum (t :: p) :: Config.tail :: more) = encodeFrame t p ++ more := by
  rw [List.length_cons] at hlen
  have hlt := len.isLt
  have hbyte : BitVec.ofNat 8 (p.length + Config.lenOverhead) = len := by
    apply BitVec.eq_of_toNat_eq
    rw [lenByte_toNat _ (by omega), ← hlen]
  exact ⟨by omega, fun more => by simp [encodeFrame_eq, hbyte]⟩

/-- Settles O19: the bytes before the `HEAD` make no difference, and each case of a candidate has its lemma; the two that wait are the
forms Q2 and Q3. -/
theorem decodeAttemptVerdicts : Obligations.DecodeAttemptVerdicts := by
  intro noise hnoise
  refine ⟨decode1_noHead noise hnoise, decode1_append_of_noHead _ hnoise, fun len body => ?_⟩
  rw [decode1_append_of_noHead _ hnoise]
  refine ⟨decode1_badLen body, fun hmin hwait => Quiescent.decode1_eq ⟨.q2, inForm_q2 hmin hwait⟩, ?_⟩
  rintro summed chk rest rfl hmin hlen
  refine ⟨decode1_badChk hmin hlen rest, ?_, ?_, ?_⟩
  · rintro rfl rfl
    exact Quiescent.decode1_eq ⟨.q3, inForm_q3 hmin hlen⟩
  · rintro x more rfl rfl hx
    exact decode1_badTail hmin hlen more hx
  · rintro t p more rfl rfl rfl
    obtain ⟨hp, heq⟩ := candidate_eq_encodeFrame hlen
    exact (congrArg decode1 (heq more)).trans (decode1_encodeFrame_append t p more hp)

/-! ## The four forms -/

/-- The last form says which `CHK` byte the candidate ends with. -/
theorem inForm_q3_iff (q : List Byte) : InForm .q3 q ↔ ∃ len summed, q = Config.head :: len :: (summed ++ [checksum summed]) ∧
    2 ≤ len.toNat ∧ summed.length + 1 = len.toNat := by
  constructor
  · rintro ⟨len, body, rfl, hmin, hlen, hchk⟩
    change 2 ≤ len.toNat at hmin
    obtain rfl | ⟨summed, c, rfl⟩ := List.eq_nil_or_concat' body
    · simp at hlen
      omega
    · have hsummed : summed.length + 1 = len.toNat := by simpa using hlen
      rw [slice_two _ _ _ _ hmin, ← hsummed] at hchk
      exact ⟨len, summed, by simpa using hchk, hmin, hsummed⟩
  · rintro ⟨len, summed, rfl, hmin, hlen⟩
    exact inForm_q3 hmin hlen

/-- The form that the number of bytes and the `LEN` byte leave open to a queue. -/
def formOf : List Byte → QueueForm
  | [] => .q0
  | [_] => .q1
  | _ :: len :: body => if body.length < len.toNat then .q2 else .q3

theorem InForm.eq_formOf {f : QueueForm} {q : List Byte} (h : InForm f q) : f = formOf q := by
  cases f with
  | q0 => cases h; rfl
  | q1 => cases h; rfl
  | q2 =>
    obtain ⟨len, body, rfl, -, hlen⟩ := h
    exact (if_pos (by simpa using hlen)).symm
  | q3 =>
    obtain ⟨len, body, rfl, -, hlen, -⟩ := h
    exact (if_neg (by simp at hlen; omega)).symm

/-- Bytes that a `LEN` byte counts, with the right `CHK` byte and the tail behind them, are a frame on the wire. -/
theorem exists_encodeFrame_eq {len : Byte} {summed : List Byte} (hmin : 2 ≤ len.toNat) (hlen : summed.length + 1 = len.toNat) :
    ∃ t p, p.length ≤ 253 ∧ encodeFrame t p = Config.head :: len :: (summed ++ [checksum summed, Config.tail]) := by
  match summed with
  | [] =>
    rw [List.length_nil] at hlen
    omega
  | t :: p =>
    obtain ⟨hp, heq⟩ := candidate_eq_encodeFrame hlen
    exact ⟨t, p, hp, by rw [heq [], List.append_nil]⟩

/-- A queue that is not empty and waits is a proper beginning of a frame: what Q2 lacks can be filled with any bytes, and Q3 lacks the
tail alone. -/
theorem InForm.begins_frame {f : QueueForm} {q : List Byte} (h : InForm f q) (hf : f ≠ .q0) :
    ∃ t p rest, p.length ≤ 253 ∧ rest ≠ [] ∧ encodeFrame t p = q ++ rest := by
  cases f with
  | q0 => exact absurd rfl hf
  | q1 =>
    cases h
    exact ⟨0x00#8, [], (encodeFrame 0x00#8 []).tail, by simp, by decide, rfl⟩
  | q2 =>
    obtain ⟨len, body, rfl, hmin, hlen⟩ := h
    change 2 ≤ len.toNat at hmin
    simp only [List.length_cons] at hlen
    obtain ⟨filler, hcount⟩ : ∃ filler : List Byte, (body ++ filler).length + 1 = len.toNat :=
      ⟨List.replicate (len.toNat - 1 - body.length) 0x00#8, by simp; omega⟩
    obtain ⟨t, p, hp, heq⟩ := exists_encodeFrame_eq hmin hcount
    exact ⟨t, p, filler ++ [checksum (body ++ filler), Config.tail], hp, by simp, by rw [heq]; simp⟩
  | q3 =>
    obtain ⟨len, summed, rfl, hmin, hlen⟩ := (inForm_q3_iff q).mp h
    obtain ⟨t, p, hp, heq⟩ := exists_encodeFrame_eq hmin hlen
    exact ⟨t, p, [Config.tail], hp, by simp, by rw [heq]; simp⟩

/-- Only the parser's operations write the queue, and both leave a quiescent one. -/
theorem exec_keeps_quiescent (i : Instr) (s t : State) (hs : Quiescent s.rxq) (h : exec i s = .next t) : Quiescent t.rxq := by
  obtain hq | ⟨-, hq⟩ | ⟨b, -, hq⟩ := exec_rxq_cases i s t h <;> rw [hq]
  · exact hs
  · exact quiescent_nil
  · exact pushByte_quiescent s.rxq b

/-- Settles O23: the form can be read off the queue, an attempt on each waits, and the invariant of the queue is kept. -/
theorem quiescentForms : Obligations.QuiescentForms :=
  ⟨fun _ _ _ hf hg => hf.eq_formOf.trans hg.eq_formOf.symm, fun _ h => h.decode1_eq, fun _ _ h hf => h.begins_frame hf,
    quiescent_nil, fun _ => quiescent_nil, exec_keeps_quiescent⟩

end Sys2Proof.Machine
end

section
/-! PROOF. Overflow, and which frames can be accepted: a full quiescent queue stands behind a `LEN` that no deliverable frame has
(43_frame_rx.md rule R107). -/

namespace Sys2Proof.Machine

/-! ## The events of a push -/

/-- Every event of the loop reports a failed candidate, or delivers a frame whose wire bytes the queue held. -/
theorem Drains.event_cases {q q' : List Byte} {evs : List Event} (h : Drains q evs q') {e : Event} (he : e ∈ evs) :
    (∃ r, e = reasonEvent r) ∨ ∃ t p, e = dispatch t p ∧ p.length + 5 ≤ q.length := by
  induction h with
  | stop => simp at he
  | invalid q q' q'' r evs hd _ ih =>
    have hlen := length_of_decode1_invalid hd
    obtain rfl | he := List.mem_cons.mp he
    · exact .inl ⟨r, rfl⟩
    · exact (ih he).imp_right fun ⟨t, p, heq, hp⟩ => ⟨t, p, heq, by omega⟩
  | frame q q' q'' t p evs hd _ ih =>
    have hlen := length_of_decode1_frame hd
    obtain rfl | he := List.mem_cons.mp he
    · exact .inr ⟨t, p, rfl, by omega⟩
    · exact (ih he).imp_right fun ⟨t, p, heq, hp⟩ => ⟨t, p, heq, by omega⟩

theorem reasonEvent_ne_overflow (r : Reason) : reasonEvent r ≠ .overflow := by
  cases r <;> simp [reasonEvent]

theorem dispatch_ne_overflow (t : Byte) (p : List Byte) : dispatch t p ≠ .overflow := by
  simp [dispatch, frameEvent]

theorem reasonEvent_ne_frame (r : Reason) (t plen : Byte) (p : List Byte) (known : Bool) (sel : Byte) :
    reasonEvent r ≠ .frame t plen p known sel := by
  cases r <;> simp [reasonEvent]

/-- A push overflows exactly where it finds a full queue. -/
theorem overflow_mem_pushByte_iff (q : List Byte) (b : Byte) : .overflow ∈ (pushByte q b).1 ↔ 256 ≤ q.length := by
  refine ⟨fun h => ?_, fun h => by simp [pushByte_of_le b h]⟩
  by_contra hlt
  obtain ⟨r, he⟩ | ⟨t, p, he, -⟩ := (drains_pushByte b (not_le.mp hlt)).event_cases h
  · exact reasonEvent_ne_overflow r he.symm
  · exact dispatch_ne_overflow t p he.symm

/-- Every frame that a push delivers fits the queue with its five other bytes, and `plen` is its length. -/
theorem length_of_frame_mem_pushByte {q : List Byte} {b t plen sel : Byte} {p : List Byte} {known : Bool}
    (h : .frame t plen p known sel ∈ (pushByte q b).1) : p.length ≤ 251 ∧ plen.toNat = p.length := by
  by_cases hq : q.length < 256
  · obtain ⟨r, he⟩ | ⟨t', p', he, hp⟩ := (drains_pushByte b hq).event_cases h
    · exact absurd he.symm (reasonEvent_ne_frame r _ _ _ _ _)
    · rw [List.length_append, List.length_singleton] at hp
      simp only [dispatch, frameEvent, Event.frame.injEq] at he
      obtain ⟨-, rfl, rfl, -, -⟩ := he
      rw [BitVec.toNat_ofNat]
      omega
  · rw [pushByte_of_le b (not_lt.mp hq)] at h
    simp at h

/-- The events that an `RX.PUSH` appends are those of the push. -/
theorem events_of_exec_rxPush {b : Byte} {s t : State} {evs : List Event} (h : exec (.rxPush b) s = .next t)
    (hout : t.out = s.out ++ [.events evs]) : evs = (pushByte s.rxq b).1 := by
  rw [exec_rxPush] at h
  cases h
  simpa using hout.symm

/-! ## Silent streams -/

/-- Bytes that the queue can hold and that make it, at their end, a quiescent one are buffered with no event. -/
theorem feed_of_quiescent (q bytes : List Byte) (hlen : q.length + bytes.length ≤ 256) (h : Quiescent (q ++ bytes)) :
    feed q bytes = ([], q ++ bytes) := by
  induction bytes generalizing q with
  | nil => simp
  | cons b bytes ih =>
    rw [List.length_cons] at hlen
    rw [List.append_cons] at h
    rw [feed_cons, pushByte_of_quiescent (by omega) h.of_append, ih (q ++ [b]) (by simp; omega) h, ← List.append_cons]
    rfl

/-- A stream that the queue can hold and that is quiescent is buffered whole by an empty parser. -/
theorem feed_nil_of_quiescent {bytes : List Byte} (hlen : bytes.length ≤ 256) (h : Quiescent bytes) :
    feed [] bytes = ([], bytes) :=
  feed_of_quiescent [] bytes (by simpa using hlen) h

/-- After such a stream the next byte is pushed into the queue that holds it. -/
theorem feed_nil_append_singleton {bytes : List Byte} (b : Byte) (hlen : bytes.length ≤ 256) (h : Quiescent bytes) :
    feed [] (bytes ++ [b]) = pushByte bytes b := by
  rw [feed_append, feed_nil_of_quiescent hlen h, feed_cons, feed_nil, List.append_nil, List.nil_append]

/-! ## Oversized candidates -/

/-- The candidate that a full quiescent queue holds. -/
theorem Quiescent.oversized {q : List Byte} (h : Quiescent q) (hfull : q.length = 256) :
    (InForm .q2 q ∧ q[1]? = some 0xFF#8) ∨ (InForm .q3 q ∧ q[1]? = some 0xFE#8) := by
  obtain ⟨form, hform⟩ := h
  cases form with
  | q0 => cases hform; simp at hfull
  | q1 => cases hform; simp at hfull
  | q2 =>
    refine .inl ⟨hform, ?_⟩
    obtain ⟨len, body, rfl, -, hlen⟩ := hform
    have hlt := len.isLt
    have hval : len = 0xFF#8 := BitVec.eq_of_toNat_eq (by simp only [BitVec.toNat_ofNat]; omega)
    simp [hval]
  | q3 =>
    refine .inr ⟨hform, ?_⟩
    obtain ⟨len, body, rfl, -, hlen, -⟩ := hform
    have hval : len = 0xFE#8 := BitVec.eq_of_toNat_eq (by simp only [BitVec.toNat_ofNat]; omega)
    simp [hval]

/-- A quiescent queue never holds more of a candidate than its `CHK` byte. -/
theorem Quiescent.length_le {q : List Byte} {len : Byte} (h : Quiescent q) (hlen : q[1]? = some len) : q.length ≤ len.toNat + 2 := by
  obtain rfl | rfl | ⟨len', body, rfl, -, hbody⟩ := h.shape
  · simp
  · simp
  · obtain rfl : len' = len := by simpa using hlen
    simpa using hbody

/-- Behind `LEN` `0xFF` the queue is full before the `CHK` byte, which overflows it. -/
theorem feed_candidate_FF {body : List Byte} (c : Byte) (h : body.length = 254) :
    feed [] (Config.head :: 0xFF#8 :: body) = ([], Config.head :: 0xFF#8 :: body) ∧
    feed [] (Config.head :: 0xFF#8 :: body ++ [c]) = ([.overflow], []) := by
  have hwait : Quiescent (Config.head :: 0xFF#8 :: body) := ⟨.q2, inForm_q2 (by decide) (by rw [h]; decide)⟩
  have hlen : (Config.head :: 0xFF#8 :: body).length = 256 := by simp [h]
  exact ⟨feed_nil_of_quiescent hlen.le hwait,
    (feed_nil_append_singleton c hlen.le hwait).trans (pushByte_of_le c hlen.ge)⟩

section CandidateFE

variable {body : List Byte} (h : body.length = 253)

include h

/-- Behind `LEN` `0xFE` a wrong `CHK` byte still fails the candidate. -/
theorem feed_candidate_FE_of_ne {c : Byte} (hc : checksum body ≠ c) :
    ∃ evs q', feed [] (Config.head :: 0xFE#8 :: body ++ [c]) = (.badChk :: evs, q') ∧ .overflow ∉ evs := by
  have hwait : Quiescent (Config.head :: 0xFE#8 :: body) := ⟨.q2, inForm_q2 (by decide) (by rw [h]; decide)⟩
  have hlen : (Config.head :: 0xFE#8 :: body).length = 255 := by simp [h]
  have hfail : decode1 (Config.head :: 0xFE#8 :: body ++ [c]) = (.invalid .badChk, 0xFE#8 :: (body ++ [c])) :=
    decode1_badChk (by decide) (by rw [h]; decide) [] hc
  have hpush : pushByte (Config.head :: 0xFE#8 :: body) c = firstEvent .badChk (drain 256 (0xFE#8 :: (body ++ [c]))) := by
    rw [pushByte_of_lt c (by omega), hlen, drain_of_invalid hfail, reasonEvent]
  have hno : .overflow ∉ (pushByte (Config.head :: 0xFE#8 :: body) c).1 := by
    rw [overflow_mem_pushByte_iff]
    omega
  rw [feed_nil_append_singleton c (by omega) hwait, hpush]
  rw [hpush, firstEvent, List.mem_cons, not_or] at hno
  exact ⟨_, _, rfl, hno.2⟩

/-- Behind `LEN` `0xFE` the right `CHK` byte fills the queue, and the byte after it, a tail or not, overflows it. -/
theorem feed_candidate_FE (x : Byte) :
    feed [] (Config.head :: 0xFE#8 :: body ++ [checksum body]) = ([], Config.head :: 0xFE#8 :: body ++ [checksum body]) ∧
    feed [] (Config.head :: 0xFE#8 :: body ++ [checksum body, x]) = ([.overflow], []) := by
  have hwait : Quiescent (Config.head :: 0xFE#8 :: body ++ [checksum body]) :=
    ⟨.q3, inForm_q3 (by decide) (by rw [h]; decide)⟩
  have hlen : (Config.head :: 0xFE#8 :: body ++ [checksum body]).length = 256 := by simp [h]
  rw [List.append_cons _ (checksum body) [x]]
  exact ⟨feed_nil_of_quiescent hlen.le hwait,
    (feed_nil_append_singleton x hlen.le hwait).trans (pushByte_of_le x hlen.ge)⟩

end CandidateFE

/-- An encoded frame into an empty parser: exactly its event. -/
theorem feed_encodeFrame (t : Byte) (p : List Byte) (hp : p.length ≤ 251) :
    feed [] (encodeFrame t p) = ([dispatch t p], []) := by
  have hlen : (encodeFrame t p).dropLast.length ≤ 256 := by
    rw [List.length_dropLast, encodeFrame_length]
    omega
  rw [← encodeFrame_dropLast_append_tail,
    feed_nil_append_singleton _ hlen (quiescent_encodeFrame_dropLast t p (by omega)), pushByte_tail t p hp]

/-- Settles O24: the bound on a quiescent queue, the events of a push, and the two oversized candidates fed byte by byte. -/
theorem overflowOnlyBehindOversizedLength : Obligations.OverflowOnlyBehindOversizedLength := by
  refine ⟨fun q hq hfull => hq.oversized hfull, fun q len hq hlen _ => hq.length_le hlen, fun b s t evs hwf hexec hout => ?_,
    fun body c h => feed_candidate_FF c h, fun body c x h => ⟨fun hc => feed_candidate_FE_of_ne h hc, ?_⟩,
    fun t p hp => feed_encodeFrame t p hp.le, fun b s t evs type plen sel p known _ hexec hout hmem => ?_⟩
  · rw [events_of_exec_rxPush hexec hout, overflow_mem_pushByte_iff]
    omega
  · rintro rfl
    exact feed_candidate_FE h x
  · rw [events_of_exec_rxPush hexec hout] at hmem
    exact length_of_frame_mem_pushByte hmem

end Sys2Proof.Machine
end

section
/-! PROOF. The dispatcher (44_dispatch.md rules R120, R122 to R130): the place of a type in the registry decides `known` and `sel`, and
an encoded frame into an empty parser comes to the event so decided. -/

namespace Sys2Proof.Machine

/-! ## The registry -/

/-- No code stands twice in the registry, so the index that the search finds is the only one. -/
theorem typeRegistry_nodup : Config.typeRegistry.Nodup := by decide

theorem registryIndex_eq_some_iff (t : Byte) (k : Nat) : registryIndex t = some k ↔ Config.typeRegistry[k]? = some t := by
  rw [registryIndex, List.findIdx?_eq_some_iff_getElem, List.getElem?_eq_some_iff]
  constructor
  · rintro ⟨hk, hfound, -⟩
    exact ⟨hk, eq_of_beq hfound⟩
  · rintro ⟨hk, rfl⟩
    refine ⟨hk, beq_self_eq_true _, fun j hj hsame => ?_⟩
    exact hj.ne ((typeRegistry_nodup.getElem_inj_iff).mp (eq_of_beq hsame))

theorem registryIndex_eq_none_iff (t : Byte) : registryIndex t = none ↔ t ∉ Config.typeRegistry := by
  simp only [registryIndex, List.findIdx?_eq_none_iff, beq_eq_false_iff_ne]
  exact ⟨fun h ht => h t ht rfl, fun h c hc hct => h (hct ▸ hc)⟩

/-! ## The event of a frame -/

/-- The code at index `k` of the registry selects output `k`. -/
theorem dispatch_of_registered {t : Byte} {k : Nat} (h : Config.typeRegistry[k]? = some t) (p : List Byte) :
    dispatch t p = .frame t (BitVec.ofNat 8 p.length) p true (BitVec.ofNat 8 (2 ^ k)) := by
  simp [dispatch, frameEvent, knownOf, selOf, (registryIndex_eq_some_iff t k).mpr h]

/-- A type outside the registry is delivered all the same and selects nothing. -/
theorem dispatch_of_unregistered {t : Byte} (h : t ∉ Config.typeRegistry) (p : List Byte) :
    dispatch t p = .frame t (BitVec.ofNat 8 p.length) p false 0x00#8 := by
  simp [dispatch, frameEvent, knownOf, selOf, (registryIndex_eq_none_iff t).mpr h]

/-- `plen` is wide enough for every payload the parser delivers. -/
theorem plen_toNat {p : List Byte} (hp : p.length ≤ 251) : (BitVec.ofNat 8 p.length).toNat = p.length := by
  rw [BitVec.toNat_ofNat]
  omega

theorem feed_encodeFrame_of_registered {t : Byte} {k : Nat} (h : Config.typeRegistry[k]? = some t) (p : List Byte)
    (hp : p.length ≤ 251) :
    feed [] (encodeFrame t p) = ([.frame t (BitVec.ofNat 8 p.length) p true (BitVec.ofNat 8 (2 ^ k))], []) := by
  rw [feed_encodeFrame t p hp, dispatch_of_registered h]

theorem feed_encodeFrame_of_unregistered {t : Byte} (h : t ∉ Config.typeRegistry) (p : List Byte) (hp : p.length ≤ 251) :
    feed [] (encodeFrame t p) = ([.frame t (BitVec.ofNat 8 p.length) p false 0x00#8], []) := by
  rw [feed_encodeFrame t p hp, dispatch_of_unregistered h]

/-! ## The row of a frame -/

/-- A header that begins with `HEAD` selects the row of its type, whatever its `LEN` bits (rule R54). -/
theorem decode_frameHeader (len t : Byte) (p : List Byte) : decode (.frame (frameHeader len t) p) = .ok (decodeType len t p) := by
  simp [decode, decodeFrame]

theorem decodeType_of_unregistered (len : Byte) {t : Byte} (h : t ∉ Config.typeRegistry) (p : List Byte) :
    decodeType len t p = .sfUnknown len t p := by
  simp only [Config.typeRegistry, List.mem_cons, List.not_mem_nil, or_false, not_or] at h
  simp [decodeType, h]

/-! ## The obligations -/

/-- Settles O30: the two readings of the registry index, and the width of `plen`. -/
theorem dispatchClassifiesType : Obligations.DispatchClassifiesType :=
  fun _ p => ⟨fun _ h => dispatch_of_registered h p, fun h => dispatch_of_unregistered h p, plen_toNat⟩

/-- Settles O31: each row is one delivery, and each example stream is the encoded frame of the type at its registry index. -/
theorem knownTypesDeliver : Obligations.KnownTypesDeliver := by
  refine ⟨fun len p s => ?_, ?_, ?_, ?_, ?_, ?_, ?_, ?_, ?_⟩
  · exact ⟨deliver_eq .., deliver_eq .., deliver_eq .., deliver_eq .., deliver_eq .., deliver_eq .., deliver_eq .., deliver_eq ..⟩
  · exact feed_encodeFrame_of_registered (k := 0) rfl [0x01#8, 0xFF#8, 0x00#8, 0x00#8, 0x0A#8] (by decide)
  · exact feed_encodeFrame_of_registered (k := 1) rfl [] (by decide)
  · exact feed_encodeFrame_of_registered (k := 2) rfl [0x64#8, 0x00#8] (by decide)
  · exact feed_encodeFrame_of_registered (k := 3) rfl [0x00#8, 0x00#8, 0x00#8, 0x00#8] (by decide)
  · exact feed_encodeFrame_of_registered (k := 4) rfl [0x5A#8, 0xA5#8, 0x5A#8] (by decide)
  · exact feed_encodeFrame_of_registered (k := 5) rfl [0x01#8, 0x32#8] (by decide)
  · exact feed_encodeFrame_of_registered (k := 6) rfl [0xFF#8, 0xFF#8] (by decide)
  · exact feed_encodeFrame_of_registered (k := 7) rfl [0x00#8] (by decide)

/-- Settles O32: the unknown row is one delivery, which a type outside the registry decodes to, and each example stream is the
encoded frame of such a type. -/
theorem unknownTypeDelivers : Obligations.UnknownTypeDelivers := by
  refine ⟨fun len t p s => ⟨fun h => ?_, deliver_eq ..⟩, ?_, ?_⟩
  · rw [decode_frameHeader, decodeType_of_unregistered len h]
  · exact feed_encodeFrame_of_unregistered (t := 0x05#8) (by decide) [0xAA#8] (by decide)
  · exact feed_encodeFrame_of_unregistered (t := 0x00#8) (by decide) [] (by decide)

end Sys2Proof.Machine
end

section
/-! PROOF. The decoder and the encoder: the operation code and the type are read back from what was written, and they select the row
of the opcode table (30_encoding.md rules R49 to R54, sections 3 and 6). -/

namespace Sys2Proof.Machine

open Sys2Proof.Laws

/-! ## Commands -/

/-- A command decodes as its command word does. -/
theorem decode_command_eq_ok_iff (cmd : BitVec 12) (w : Word) (f : CanFields) (p : List Byte) (i : Instr) :
    decode (.command cmd w f p) = .ok i ↔ decodeCommand cmd w f p = .ok i := by
  rw [decode]
  cases decodeCommand cmd w f p <;> simp

/-- The instruction that a command decodes to is encoded with the same operation code. -/
theorem rowBits_encode_of_decodeCommand {cmd : BitVec 12} {w : Word} {f : CanFields} {p : List Byte} {i : Instr}
    (h : decodeCommand cmd w f p = .ok i) : (encode i).rowBits = (opOf cmd).toNat := by
  unfold decodeCommand at h
  split at h <;> cases h <;> simp [encode, byteCommand, Request.rowBits, *]

/-- The seven reserved codes decode to nothing (rule R51). -/
theorem decodeCommand_of_reserved {op : BitVec 4} (h : op ∈ reservedOps) (a : Byte) (w : Word) (f : CanFields) (p : List Byte) :
    decodeCommand (commandWord op a) w f p = .error op := by
  simp only [reservedOps, List.mem_cons, List.not_mem_nil, or_false] at h
  rcases h with rfl | rfl | rfl | rfl | rfl | rfl | rfl <;> simp [decodeCommand]

/-- The codes that are not reserved are those of the nine operations. -/
theorem mem_operations_of_not_reserved :
    ∀ op : BitVec 4, op ∉ reservedOps → op ∈ [0x0#4, 0x1#4, 0x2#4, 0x3#4, 0x4#4, 0x5#4, 0x8#4, 0xC#4, 0xD#4] := by
  decide

/-- Every other code decodes to its operation (rule R49). -/
theorem exists_decode_of_not_reserved {op : BitVec 4} (h : op ∉ reservedOps) (a : Byte) (w : Word) (f : CanFields) (p : List Byte) :
    ∃ i, decode (.command (commandWord op a) w f p) = .ok i := by
  have hop := mem_operations_of_not_reserved op h
  simp only [List.mem_cons, List.not_mem_nil, or_false] at hop
  rcases hop with rfl | rfl | rfl | rfl | rfl | rfl | rfl | rfl | rfl
  · exact ⟨_, decode_csClr a w f p⟩
  · exact ⟨_, decode_csAdd a w f p⟩
  · exact ⟨_, decode_csGet a w f p⟩
  · exact ⟨_, decode_csVfy a w f p⟩
  · exact ⟨_, decode_cidPack a w f p⟩
  · exact ⟨_, decode_cidUnpack a w f p⟩
  · exact ⟨_, decode_txEnc a w f p⟩
  · exact ⟨_, decode_rxPush a w f p⟩
  · exact ⟨_, decode_rxFlush a w f p⟩

/-- A command that decodes to nothing has a reserved code, and answers that code. -/
theorem reserved_of_decodeCommand_error {cmd : BitVec 12} {w : Word} {f : CanFields} {p : List Byte} {op : BitVec 4}
    (h : decodeCommand cmd w f p = .error op) : op = opOf cmd ∧ op ∈ reservedOps := by
  rw [← commandWord_opOf_argOf cmd] at h
  by_cases hop : opOf cmd ∈ reservedOps
  · rw [decodeCommand_of_reserved hop] at h
    cases h
    exact ⟨rfl, hop⟩
  · obtain ⟨i, hi⟩ := exists_decode_of_not_reserved hop (argOf cmd) w f p
    rw [decode_command_eq_ok_iff, h] at hi
    cases hi

/-! ## Frame headers -/

/-- A header that begins with `HEAD` is that of its `LEN` and `TYPE` bytes. -/
theorem frameHeader_lenOf_typeOf {header : BitVec 24} (h : headOf header = Config.head) :
    frameHeader (lenOf header) (typeOf header) = header := by
  have hlt := header.isLt
  have hhead : header.toNat / 65536 % 256 = 0x5A := by
    simpa [headOf, Config.head, BitVec.extractLsb'_toNat, Nat.shiftRight_eq_div_pow] using congrArg BitVec.toNat h
  apply BitVec.eq_of_toNat_eq
  rw [frameHeader_toNat, lenOf, typeOf, BitVec.extractLsb'_toNat, BitVec.extractLsb'_toNat, Nat.shiftRight_eq_div_pow,
    Nat.shiftRight_eq_div_pow]
  omega

/-- The bits of a header under the mask of the unknown row are its first byte. -/
theorem headOf_eq_head_iff (header : BitVec 24) : headOf header = Config.head ↔ header.toNat &&& 0xFF0000 = 0x5A0000 := by
  constructor
  · intro h
    have hmask := congrArg BitVec.toNat (frameHeader_mask_head (lenOf header) (typeOf header))
    rwa [frameHeader_lenOf_typeOf h, BitVec.toNat_and] at hmask
  · intro h
    have hshift := congrArg (· >>> 16) h
    simp only [Nat.shiftRight_and_distrib] at hshift
    apply BitVec.eq_of_toNat_eq
    rw [headOf, BitVec.extractLsb'_toNat, ← Nat.and_two_pow_sub_one_eq_mod]
    exact hshift

/-- The bits of a header under the mask of a registered type are its first byte and its type. -/
theorem frameHeader_and_registered (len t : Byte) : (frameHeader len t).toNat &&& 0xFF00FF = 0x5A0000 + t.toNat := by
  have hmask := congrArg BitVec.toNat (frameHeader_mask len t)
  have hlt : t.toNat < 2 ^ 17 := t.isLt.trans (by decide)
  have hor : 2 ^ 17 * 45 + t.toNat = 2 ^ 17 * 45 ||| t.toNat := Nat.two_pow_add_eq_or_of_lt hlt 45
  rw [BitVec.toNat_and, BitVec.toNat_or, BitVec.toNat_setWidth_of_le (by decide)] at hmask
  exact hmask.trans hor.symm

/-! ## The row of a type -/

/-- The eight registered codes, one by one. -/
theorem registered_cases {t : Byte} (h : t ∈ Config.typeRegistry) :
    t = Config.typeLedsCtrl ∨ t = Config.typeSysStatus ∨ t = Config.typeBatStatus ∨ t = Config.typeModuleQuery ∨
    t = Config.typeModuleCtrl ∨ t = Config.typeIrCtrl ∨ t = Config.typeCurrentQuery ∨ t = Config.typeVersionQuery := by
  simpa [Config.typeRegistry] using h

/-- The row of a type is encoded with that type. -/
theorem encode_decodeType (len t : Byte) (p : List Byte) : encode (decodeType len t p) = .frame (frameHeader len t) p := by
  by_cases h : t ∈ Config.typeRegistry
  · rcases registered_cases h with rfl | rfl | rfl | rfl | rfl | rfl | rfl | rfl <;> rfl
  · rw [decodeType_of_unregistered len h, encode]

/-- The row of a type is well-formed for every payload that its `LEN` byte counts. -/
theorem wellFormed_decodeType (len t : Byte) (p : List Byte) : (decodeType len t p).wellFormed = acceptableLength len p := by
  by_cases h : t ∈ Config.typeRegistry
  · rcases registered_cases h with rfl | rfl | rfl | rfl | rfl | rfl | rfl | rfl <;> rfl
  · rw [decodeType_of_unregistered len h]
    simp [Instr.wellFormed, unregisteredType, h]

/-- Every row of a type is the dispatcher's. -/
theorem unitOf_decodeType (len t : Byte) (p : List Byte) : unitOf (decodeType len t p) = .dsp := by
  by_cases h : t ∈ Config.typeRegistry
  · rcases registered_cases h with rfl | rfl | rfl | rfl | rfl | rfl | rfl | rfl <;> rfl
  · rw [decodeType_of_unregistered len h, unitOf]

/-- A registered type has a row of its own. -/
theorem unregistered_of_decodeType {len t len' t' : Byte} {p p' : List Byte} (h : decodeType len t p = .sfUnknown len' t' p') :
    t ∉ Config.typeRegistry := by
  intro ht
  rcases registered_cases ht with rfl | rfl | rfl | rfl | rfl | rfl | rfl | rfl <;> cases h

/-- A frame decodes exactly where its header begins with `HEAD`, and then to the row of its type. -/
theorem decode_frame_eq_ok_iff (header : BitVec 24) (p : List Byte) (i : Instr) :
    decode (.frame header p) = .ok i ↔ headOf header = Config.head ∧ i = decodeType (lenOf header) (typeOf header) p := by
  by_cases h : headOf header = Config.head <;> simp [decode, decodeFrame, h, eq_comm]

/-! ## The table -/

/-- Every instruction is encoded as its row of the table says (rule R54). -/
theorem row_selects_encode : ∀ i : Instr, i.row.selects (encode i) = true
  | .csClr => EncodeMatchesRow.csClr
  | .csAdd b => EncodeMatchesRow.csAdd b
  | .csGet => EncodeMatchesRow.csGet
  | .csVfy e => EncodeMatchesRow.csVfy e
  | .cidPack v => EncodeMatchesRow.cidPack v
  | .cidUnpack w => EncodeMatchesRow.cidUnpack w
  | .txEnc t p => EncodeMatchesRow.txEnc t p
  | .rxPush b => EncodeMatchesRow.rxPush b
  | .rxFlush => EncodeMatchesRow.rxFlush
  | .sfLedsCtrl len p => EncodeMatchesRow.sfLedsCtrl len p
  | .sfSysStatus len p => EncodeMatchesRow.sfSysStatus len p
  | .sfBatStatus len p => EncodeMatchesRow.sfBatStatus len p
  | .sfModuleQuery len p => EncodeMatchesRow.sfModuleQuery len p
  | .sfModuleCtrl len p => EncodeMatchesRow.sfModuleCtrl len p
  | .sfIrCtrl len p => EncodeMatchesRow.sfIrCtrl len p
  | .sfCurrentQuery len p => EncodeMatchesRow.sfCurrentQuery len p
  | .sfVersionQuery len p => EncodeMatchesRow.sfVersionQuery len p
  | .sfUnknown len t p => EncodeMatchesRow.sfUnknown len t p

/-- A request and the encoding of what it decodes to agree in the bits that a row looks at. -/
theorem rowBits_encode_of_decode {r : Request} {i : Instr} (h : decode r = .ok i) : (encode i).rowBits = r.rowBits := by
  cases r with
  | command cmd w f p => exact rowBits_encode_of_decodeCommand ((decode_command_eq_ok_iff cmd w f p i).mp h)
  | frame header p =>
    obtain ⟨hhead, rfl⟩ := (decode_frame_eq_ok_iff header p i).mp h
    rw [encode_decodeType, frameHeader_lenOf_typeOf hhead]

/-! ## The obligations -/

/-- Settles O48: an operation's code selects it and its operands stand in their carriers; a well-formed frame type's code selects its
row, and `SF.UNKNOWN` is well-formed only for a type that no other row takes. -/
theorem decodeOfEncode : Obligations.DecodeOfEncode := by
  intro i hwf
  cases i with
  | csClr => exact decode_csClr ..
  | csAdd b => exact decode_csAdd ..
  | csGet => exact decode_csGet ..
  | csVfy e => exact decode_csVfy ..
  | cidPack v => exact decode_cidPack ..
  | cidUnpack w => exact decode_cidUnpack ..
  | txEnc t p => exact decode_txEnc ..
  | rxPush b => exact decode_rxPush ..
  | rxFlush => exact decode_rxFlush ..
  | sfUnknown len t p =>
    have ht : t ∉ Config.typeRegistry := by
      simpa [unregisteredType] using (Bool.and_eq_true_iff.mp hwf).2
    rw [encode, decode_frameHeader, decodeType_of_unregistered len ht]
  | _ => exact decode_frameHeader ..

/-- Settles O49: what a request decodes to is encoded with the same bits under the row's mask; a registered type has its own row; and
the bits under the mask of the unknown row decide whether there is one. -/
theorem decodeFollowsTableRows : Obligations.DecodeFollowsTableRows := by
  refine ⟨fun r i h => ?_, fun header p len t p' h c hc hmask => ?_, fun header p h => ?_, fun header p h => ?_⟩
  · rw [TableRow.selects, ← rowBits_encode_of_decode h]
    exact row_selects_encode i
  · obtain ⟨hhead, hrow⟩ := (decode_frame_eq_ok_iff header p _).mp h
    refine unregistered_of_decodeType hrow.symm ?_
    rw [← frameHeader_lenOf_typeOf hhead, frameHeader_and_registered] at hmask
    have hcode : (typeOf header).toNat ∈ Config.typeRegistry.map BitVec.toNat := Nat.add_left_cancel hmask ▸ hc
    exact (List.mem_map_of_injective fun _ _ => BitVec.eq_of_toNat_eq).mp hcode
  · have hhead := mt (headOf_eq_head_iff header).mp h
    simp [decode, decodeFrame, hhead]
  · exact ⟨_, (decode_frame_eq_ok_iff header p _).mpr ⟨(headOf_eq_head_iff header).mpr h, rfl⟩⟩

/-- Settles O50: each word is the command word of its code and operand, or the header of its `LEN` and type. -/
theorem sampleWordsDecode : Obligations.SampleWordsDecode :=
  ⟨decode_csClr 0x00#8 .., decode_csAdd 0x5A#8 .., decode_csVfy 0x0B#8 .., decode_cidUnpack 0x00#8 .., decode_txEnc 0x02#8 ..,
    decode_rxPush 0xA5#8 .., decode_rxFlush 0x00#8 .., decode_frameHeader 0x04#8 0x02#8 _, decode_frameHeader 0x03#8 0x05#8 _⟩

end Sys2Proof.Machine
end

section
/-! PROOF. What every instruction does, in three functions: the accumulator, the queue and the result it leaves; what every step does;
and from them which unit changes what, and that the units do not disturb each other (10_state.md section 2; 20_memory.md sections 5
and 7; 70_reset_and_hazards.md). -/

namespace Sys2Proof.Machine

/-! ## The effect of an instruction -/

/-- The accumulator after an instruction. -/
def accAfter : Instr → Byte → Byte
  | .csClr, _ => 0x00#8
  | .csAdd b, acc => acc + b
  | _, acc => acc

/-- The queue after an instruction. -/
def rxqAfter : Instr → List Byte → List Byte
  | .rxPush b, q => (pushByte q b).2
  | .rxFlush, _ => []
  | _, q => q

/-- The result of an instruction, if it gives one. -/
def resultOf : Instr → State → Option Output
  | .csClr, _ => none
  | .csAdd _, _ => none
  | .csGet, s => some (.r8 s.csAcc)
  | .csVfy e, s => some (.r1 (s.csAcc == e))
  | .cidPack v, s => some (.rw (pack s.cidLayout v))
  | .cidUnpack w, s => some (.unpacked (unpackResults s.cidLayout w))
  | .txEnc t p, _ => some (txResult t p)
  | .rxPush b, s => some (.events (pushByte s.rxq b).1)
  | .rxFlush, _ => none
  | .sfLedsCtrl _ p, _ => some (.events [dispatch Config.typeLedsCtrl p])
  | .sfSysStatus _ p, _ => some (.events [dispatch Config.typeSysStatus p])
  | .sfBatStatus _ p, _ => some (.events [dispatch Config.typeBatStatus p])
  | .sfModuleQuery _ p, _ => some (.events [dispatch Config.typeModuleQuery p])
  | .sfModuleCtrl _ p, _ => some (.events [dispatch Config.typeModuleCtrl p])
  | .sfIrCtrl _ p, _ => some (.events [dispatch Config.typeIrCtrl p])
  | .sfCurrentQuery _ p, _ => some (.events [dispatch Config.typeCurrentQuery p])
  | .sfVersionQuery _ p, _ => some (.events [dispatch Config.typeVersionQuery p])
  | .sfUnknown _ t p, _ => some (.events [frameEvent t p false 0x00#8])

/-- Every instruction answers a next state, and this is what it is: the layout and what is pending stay, and the result comes after
all earlier ones. -/
theorem exec_eq (i : Instr) (s : State) : exec i s = .next
    { s with csAcc := accAfter i s.csAcc, rxq := rxqAfter i s.rxq, out := s.out ++ (resultOf i s).toList } := by
  cases i with
  | csClr | csAdd | rxFlush => exact congrArg Host.Outcome.next (State.ext_fields _ _ rfl rfl rfl rfl (List.append_nil _).symm)
  | _ => rfl

/-- The same, read backwards: the five fields of the state that an instruction answers. -/
theorem exec_fields {i : Instr} {s t : State} (h : exec i s = .next t) :
    t.csAcc = accAfter i s.csAcc ∧ t.rxq = rxqAfter i s.rxq ∧ t.cidLayout = s.cidLayout ∧ t.pending = s.pending ∧
      t.out = s.out ++ (resultOf i s).toList := by
  rw [exec_eq] at h
  cases h
  exact ⟨rfl, rfl, rfl, rfl, rfl⟩

/-- The accumulator changes only by `CS.CLR` and `CS.ADD`. -/
theorem accAfter_of_ne {i : Instr} (hclr : i ≠ .csClr) (hadd : ∀ b, i ≠ .csAdd b) (acc : Byte) : accAfter i acc = acc := by
  cases i with
  | csClr => exact absurd rfl hclr
  | csAdd b => exact absurd rfl (hadd b)
  | _ => rfl

/-- The queue changes only by `RX.PUSH` and `RX.FLUSH`. -/
theorem rxqAfter_of_ne {i : Instr} (hflush : i ≠ .rxFlush) (hpush : ∀ b, i ≠ .rxPush b) (q : List Byte) : rxqAfter i q = q := by
  cases i with
  | rxFlush => exact absurd rfl hflush
  | rxPush b => exact absurd rfl (hpush b)
  | _ => rfl

theorem accAfter_of_other_unit {i : Instr} (h : unitOf i ≠ .csu) (acc : Byte) : accAfter i acc = acc :=
  accAfter_of_ne (by rintro rfl; exact h rfl) (by rintro b rfl; exact h rfl) acc

theorem rxqAfter_of_other_unit {i : Instr} (h : unitOf i ≠ .rxp) (q : List Byte) : rxqAfter i q = q :=
  rxqAfter_of_ne (by rintro rfl; exact h rfl) (by rintro b rfl; exact h rfl) q

/-- `CS.CLR`, `CS.ADD` and `RX.FLUSH` give no result, every other instruction gives one. -/
theorem resultOf_eq_none_iff (i : Instr) (s : State) :
    resultOf i s = none ↔ i = .csClr ∨ (∃ b, i = .csAdd b) ∨ i = .rxFlush := by
  cases i <;> simp [resultOf]

/-- A result depends on the layout and on the state of the instruction's own unit. -/
theorem resultOf_congr {i : Instr} {s t : State} (hlayout : t.cidLayout = s.cidLayout) (hacc : unitOf i = .csu → t.csAcc = s.csAcc)
    (hrxq : unitOf i = .rxp → t.rxq = s.rxq) : resultOf i t = resultOf i s := by
  cases i with
  | csGet | csVfy => simp only [resultOf, hacc rfl]
  | cidPack | cidUnpack => simp only [resultOf, hlayout]
  | rxPush => simp only [resultOf, hrxq rfl]
  | _ => rfl

/-- An instruction of another unit does not change what an instruction gives. -/
theorem resultOf_after_other_unit {i j : Instr} {s t : State} (h : exec i s = .next t) (hne : unitOf i ≠ unitOf j) :
    resultOf j t = resultOf j s := by
  obtain ⟨hacc, hrxq, hlayout, -, -⟩ := exec_fields h
  refine resultOf_congr hlayout (fun hj => ?_) (fun hj => ?_)
  · rw [hacc, accAfter_of_other_unit (hj ▸ hne)]
  · rw [hrxq, rxqAfter_of_other_unit (hj ▸ hne)]

/-- Of two units at most one writes the accumulator. -/
theorem accAfter_comm {i j : Instr} (hne : unitOf i ≠ unitOf j) (acc : Byte) :
    accAfter j (accAfter i acc) = accAfter i (accAfter j acc) := by
  by_cases hi : unitOf i = .csu
  · rw [accAfter_of_other_unit (i := j) (hi ▸ hne.symm), accAfter_of_other_unit (i := j) (hi ▸ hne.symm)]
  · rw [accAfter_of_other_unit hi, accAfter_of_other_unit hi]

/-- Of two units at most one writes the queue. -/
theorem rxqAfter_comm {i j : Instr} (hne : unitOf i ≠ unitOf j) (q : List Byte) :
    rxqAfter j (rxqAfter i q) = rxqAfter i (rxqAfter j q) := by
  by_cases hi : unitOf i = .rxp
  · rw [rxqAfter_of_other_unit (i := j) (hi ▸ hne.symm), rxqAfter_of_other_unit (i := j) (hi ▸ hne.symm)]
  · rw [rxqAfter_of_other_unit hi, rxqAfter_of_other_unit hi]

/-- A reading operation appends one result, which earlier results have no part in. -/
theorem exec_reading {i : Instr} (h : (i = .csGet ∨ ∃ e, i = .csVfy e) ∨ unitOf i = .cic ∨ unitOf i = .txe) (s : State) :
    ∃ o, ∀ outs, exec i { s with out := outs } = .next { s with out := outs ++ [o] } := by
  cases i with
  | csGet => exact ⟨.r8 s.csAcc, fun _ => rfl⟩
  | csVfy e => exact ⟨.r1 (s.csAcc == e), fun _ => rfl⟩
  | cidPack v => exact ⟨.rw (pack s.cidLayout v), fun _ => rfl⟩
  | cidUnpack w => exact ⟨.unpacked (unpackResults s.cidLayout w), fun _ => rfl⟩
  | txEnc t p => exact ⟨txResult t p, fun _ => rfl⟩
  | _ => simp [unitOf] at h

/-! ## Steps -/

theorem step_of_idle {s : State} (h : s.pending = []) : step s = .next s := by
  simp [step, fetch, h]

theorem step_of_reset {s : State} {rest : List Input} (h : s.pending = .reset :: rest) :
    step s = .next (applyReset (s.setPending rest)) := by
  simp [step, fetch, h]

section Issue

variable {s : State} {cmd : BitVec 12} {w : Word} {f : CanFields} {p : List Byte} {rest : List Input}
  (h : s.pending = .issue cmd w f p :: rest)

include h

theorem step_of_ok {i : Instr} (hd : decodeCommand cmd w f p = .ok i) : step s = exec i (s.setPending rest) := by
  simp [step, fetch, h, hd]

theorem step_of_error {op : BitVec 4} (hd : decodeCommand cmd w f p = .error op) :
    step s = .next (raiseReserved op (s.setPending rest)) := by
  simp [step, fetch, h, hd]

end Issue

/-- No step writes the layout (log 3). -/
theorem step_cidLayout {s t : State} (h : step s = .next t) : t.cidLayout = s.cidLayout := by
  obtain ⟨-, rfl⟩ | ⟨rest, -, rfl⟩ | ⟨_, _, _, _, rest, i, -, -, hi⟩ | ⟨_, _, _, _, rest, op, -, -, rfl⟩ := step_cases s t h
  · rfl
  · exact applyReset_cidLayout _
  · exact (exec_cidLayout i (s.setPending rest) t hi).trans (State.setPending_cidLayout s rest)
  · exact raiseReserved_cidLayout op _

/-! ## The obligations -/

/-- Settles O43, from what an instruction leaves in each field. -/
theorem unitsKeepToTheirState : Obligations.UnitsKeepToTheirState := by
  refine ⟨fun i s t h => ?_, fun s t h => step_cidLayout h⟩
  obtain ⟨hacc, hrxq, hlayout, hpend, -⟩ := exec_fields h
  refine ⟨fun hclr hadd => hacc.trans (accAfter_of_ne hclr hadd _), fun hflush hpush => ?_, hlayout, hpend⟩
  have hkeep := hrxq.trans (rxqAfter_of_ne hflush hpush _)
  exact ⟨hkeep, fun k => by rw [hkeep]⟩

/-- Settles O44: only one of the two units writes each item of state, and neither reads what the other writes. -/
theorem unitsCommute : Obligations.UnitsCommute := by
  intro i j s hne
  refine ⟨_, _, _, _, (resultOf i s).toList, (resultOf j s).toList, exec_eq i s, exec_eq j _, exec_eq j s, exec_eq i _,
    accAfter_comm hne s.csAcc, rxqAfter_comm hne s.rxq, rfl, ?_, rfl, ?_⟩
  · rw [resultOf_after_other_unit (exec_eq i s) hne]
  · rw [resultOf_after_other_unit (exec_eq j s) hne.symm]

/-- Only one value of the accumulator gives one state. -/
theorem State.setAcc_inj (s : State) (v v' : Byte) : s.setAcc v = s.setAcc v' ↔ v = v' :=
  ⟨congrArg State.csAcc, congrArg s.setAcc⟩

/-- Settles O47: a reading operation's result does not depend on earlier ones, a second `CS.CLR` or `RX.FLUSH` writes the same again,
and adding `b` once more changes the sum unless `b` is zero. -/
theorem repeatedOperations : Obligations.RepeatedOperations := by
  refine ⟨fun i s h => ?_, fun i s h => ?_, fun b s => ?_⟩
  · obtain ⟨o, ho⟩ := exec_reading h s
    refine ⟨o, ho s.out, ?_⟩
    rw [runInstrs_cons _ _ _ _ (ho s.out), runInstrs_cons _ _ _ _ (ho (s.out ++ [o])), runInstrs_nil, List.append_assoc]
    rfl
  · obtain rfl | rfl := h
    · exact (runInstrs_cons _ _ _ _ (exec_csClr s)).trans (exec_csClr _)
    · exact (runInstrs_cons _ _ _ _ (exec_rxFlush s)).trans (exec_rxFlush _)
  · rw [runInstrs_cons _ _ _ _ (exec_csAdd b s), runInstrs_cons _ _ _ _ (exec_csAdd b _), runInstrs_nil, exec_csAdd,
      State.setAcc_setAcc, State.setAcc_csAcc, Host.Outcome.next.injEq, State.setAcc_inj]
    exact add_eq_left

/-- Settles O45, from the result that an instruction appends. -/
theorem resultsAreAppended : Obligations.ResultsAreAppended := by
  intro i s t h
  obtain ⟨-, -, -, -, hout⟩ := exec_fields h
  refine ⟨_, hout, fun hnone => ?_, fun hclr hadd hflush => ?_⟩
  · rw [(resultOf_eq_none_iff i s).mpr hnone, Option.toList_none]
  · have hsome : resultOf i s ≠ none := fun h => by
      obtain hi | ⟨b, hi⟩ | hi := (resultOf_eq_none_iff i s).mp h
      exacts [hclr hi, hadd b hi, hflush hi]
    obtain ⟨o, ho⟩ := Option.ne_none_iff_exists'.mp hsome
    rw [ho, Option.toList_some, List.length_singleton]

/-- Settles O39: every instruction answers a next state, and the other outcomes of an input are next states by themselves. -/
theorem everyOperationCompletes : Obligations.EveryOperationCompletes := by
  refine ⟨fun i s => ⟨_, exec_eq i s⟩, fun s => ?_⟩
  obtain ⟨hp, -⟩ | ⟨rest, hp, -⟩ | ⟨_, _, _, _, rest, i, hp, hd, -⟩ | ⟨_, _, _, _, rest, op, hp, hd, -⟩ := fetch_cases s
  · exact ⟨_, step_of_idle hp⟩
  · exact ⟨_, step_of_reset hp⟩
  · exact ⟨_, (step_of_ok hp hd).trans (exec_eq i _)⟩
  · exact ⟨_, step_of_error hp hd⟩

/-- Settles O35: with nothing pending there is no input to take. -/
theorem idleStepChangesNothing : Obligations.IdleStepChangesNothing := fun _ h => step_of_idle h

/-- Settles O37: the input is taken, and `applyReset` is the two writes. -/
theorem resetInputClearsState : Obligations.ResetInputClearsState := fun _ _ h => step_of_reset h

/-- Settles O41: the queue that any input leaves is bounded and quiescent, and nothing writes the layout. -/
theorem stepKeepsInvariant : Obligations.StepKeepsInvariant := step_keeps_inv

/-- Settles O42, from the reset values and the validity of the default layout. -/
theorem resetMeetsInvariant : Obligations.ResetMeetsInvariant := inv_reset

end Sys2Proof.Machine
end

section
/-! PROOF. Resynchronisation: noise and the bytes of a failed candidate leave an empty queue, so the next frame is delivered
(43_frame_rx.md sections 1, 3 and 4). -/

namespace Sys2Proof.Machine

/-! ## Noise and waiting candidates -/

/-- Into an empty queue a byte that is not `HEAD` is dropped silently. -/
theorem pushByte_nil_of_ne_head {b : Byte} (h : b ≠ Config.head) : pushByte [] b = ([], []) := by
  rw [pushByte_of_lt b (by simp), List.nil_append, drain_of_needMoreData (decode1_noHead [b] (by simpa using h.symm))]

/-- Settles O28, by induction on the noise: each push leaves the queue empty for the next. -/
theorem noiseIsDroppedSilently : Obligations.NoiseIsDroppedSilently := by
  intro noise s hempty hnoise
  induction noise generalizing s with
  | nil => simp [rxFeed]
  | cons b noise ih =>
    obtain ⟨hb, hrest⟩ := not_or.mp (mt List.mem_cons.mpr hnoise)
    have hpush : exec (.rxPush b) s = .next (s.give (.events [])) := by
      rw [exec_rxPush, hempty, pushByte_nil_of_ne_head (Ne.symm hb), ← hempty]
      rfl
    rw [rxFeed, List.map_cons, runInstrs_cons _ _ _ _ hpush]
    refine (ih (s.give (.events [])) hempty hrest).trans (congrArg _ ?_)
    ext1 <;> simp [List.replicate_succ]

/-- Settles O29: with one more byte the candidate still lacks its `CHK` byte, so the queue is in form Q2. -/
theorem waitingCandidateHoldsBytes : Obligations.WaitingCandidateHoldsBytes := by
  intro b len body s hq hmin hwait
  have hlt := len.isLt
  have hlen : s.rxq.length < 256 := by
    rw [hq, List.length_cons, List.length_cons]
    omega
  have hquiet : Quiescent (s.rxq ++ [b]) := by
    rw [hq]
    exact ⟨.q2, inForm_q2 hmin (by simpa using hwait)⟩
  rw [exec_rxPush, pushByte_of_quiescent hlen hquiet]
  rfl

/-! ## A corrupted frame -/

/-- A push that fails the candidate and leaves no `HEAD` gives the failure's event alone and empties the queue. -/
theorem pushByte_of_invalid_noHead {q q' : List Byte} {b : Byte} {r : Reason} (hlen : q.length < 256)
    (h : decode1 (q ++ [b]) = (.invalid r, q')) (hno : Config.head ∉ q') : pushByte q b = ([reasonEvent r], []) := by
  rw [pushByte_of_lt b hlen, drain_of_invalid h, drain_of_needMoreData (decode1_noHead q' hno), firstEvent]

section CorruptedFrame

variable {len chk x : Byte} {summed : List Byte} (hmin : 2 ≤ len.toNat) (hmax : len.toNat ≤ 253)
  (hlen : summed.length + 1 = len.toNat)

include hmin hmax hlen

/-- A wrong `CHK` byte fails the candidate, and the byte in the tail's place is noise. -/
theorem feed_corrupted_badChk (hno : Config.head ∉ len :: (summed ++ [chk, x])) (hchk : checksum summed ≠ chk) :
    feed [] (Config.head :: len :: (summed ++ [chk, x])) = ([.badChk], []) := by
  have hwait : Quiescent (Config.head :: len :: summed) := ⟨.q2, inForm_q2 hmin (by omega)⟩
  have hx : x ≠ Config.head := by
    rintro rfl
    simp at hno
  have hpush : pushByte (Config.head :: len :: summed) chk = ([.badChk], []) := by
    have hlt : (Config.head :: len :: summed).length < 256 := by simp; omega
    rw [List.append_cons, ← List.cons_append] at hno
    exact pushByte_of_invalid_noHead hlt (decode1_badChk hmin hlen [] hchk) fun h => hno (List.mem_append_left _ h)
  calc feed [] (Config.head :: len :: (summed ++ [chk, x]))
      = feed [] (Config.head :: len :: summed ++ [chk] ++ [x]) := by simp
    _ = ([.badChk], []) := by
      rw [feed_append, feed_nil_append_singleton chk (by simp; omega) hwait, hpush, feed_cons, pushByte_nil_of_ne_head hx, feed_nil]
      rfl

/-- A wrong tail fails the candidate that has waited for it. -/
theorem feed_corrupted_badTail (hno : Config.head ∉ len :: (summed ++ [checksum summed, x])) (hx : x ≠ Config.tail) :
    feed [] (Config.head :: len :: (summed ++ [checksum summed, x])) = ([.badTail], []) := by
  have hwait : Quiescent (Config.head :: len :: (summed ++ [checksum summed])) := ⟨.q3, inForm_q3 hmin hlen⟩
  have hbytes : Config.head :: len :: (summed ++ [checksum summed, x]) =
      Config.head :: len :: (summed ++ [checksum summed]) ++ [x] := by simp
  have hfail := decode1_badTail hmin hlen [] hx
  rw [hbytes] at hfail ⊢
  rw [feed_nil_append_singleton x (by simp; omega) hwait]
  exact pushByte_of_invalid_noHead (by simp; omega) hfail hno

/-- Where both checks are satisfied all the same, the bytes are those of a frame. -/
theorem feed_corrupted_accepted :
    feed [] (Config.head :: len :: (summed ++ [checksum summed, Config.tail])) =
      ([dispatch (summed.headD 0x00#8) (summed.drop 1)], []) := by
  match summed with
  | [] =>
    rw [List.length_nil] at hlen
    omega
  | t :: p =>
    obtain ⟨-, heq⟩ := candidate_eq_encodeFrame hlen
    rw [List.length_cons] at hlen
    rw [heq [], List.append_nil, feed_encodeFrame t p (by omega)]
    rfl

/-- What becomes of a candidate with its `LEN` intact and no further `HEAD`: one event, and an empty queue. -/
theorem feed_corrupted (hno : Config.head ∉ len :: (summed ++ [chk, x])) :
    feed [] (Config.head :: len :: (summed ++ [chk, x])) =
      ([if checksum summed ≠ chk then .badChk
        else if x ≠ Config.tail then .badTail
        else dispatch (summed.headD 0x00#8) (summed.drop 1)], []) := by
  by_cases hchk : checksum summed ≠ chk
  · rw [if_pos hchk, feed_corrupted_badChk hmin hmax hlen hno hchk]
  obtain rfl := not_not.mp hchk
  rw [if_neg hchk]
  by_cases hx : x ≠ Config.tail
  · rw [if_pos hx, feed_corrupted_badTail hmin hmax hlen hno hx]
  obtain rfl := not_not.mp hx
  rw [if_neg hx, feed_corrupted_accepted hmin hmax hlen]

end CorruptedFrame

/-- A list with two bytes at least ends with two bytes. -/
theorem exists_eq_append_pair {xs : List Byte} {n : Nat} (h : xs.length = n + 2) :
    ∃ summed chk x, xs = summed ++ [chk, x] ∧ summed.length = n := by
  refine ⟨xs.take n, xs[n], xs[n + 1], ?_, by simp [h]⟩
  conv_lhs => rw [← List.take_append_drop n xs, List.drop_eq_getElem_cons (by omega), List.drop_eq_getElem_cons (by omega)]
  rw [List.drop_eq_nil_of_le (by omega)]

/-- Settles O26: each of the three frames is fed to an empty parser and leaves it empty. -/
theorem recoveryAfterCorruptedFrame : Obligations.RecoveryAfterCorruptedFrame := by
  intro s ta tb pa pb len xs hempty hpa hpb hmin hmax hlen hno
  obtain ⟨n, hn⟩ := Nat.exists_eq_add_of_le' (Nat.one_le_of_lt hmin)
  obtain ⟨summed, chk, x, rfl, hsummed⟩ := exists_eq_append_pair (xs := xs) (n := n) (by omega)
  obtain ⟨outs, hrun, -, hevs⟩ :=
    runInstrs_rxFeed (encodeFrame ta pa ++ (Config.head :: len :: (summed ++ [chk, x])) ++ encodeFrame tb pb) s
  rw [hempty, feed_append, feed_append, feed_encodeFrame ta pa hpa, feed_corrupted hmin hmax (by omega) hno,
    feed_encodeFrame tb pb hpb] at hrun hevs
  refine ⟨outs, hrun.trans (congrArg _ ?_), hevs.trans ?_⟩
  · ext1 <;> simp [hempty]
  · obtain ⟨t, p, rfl⟩ := List.exists_cons_of_length_pos (show 0 < summed.length by omega)
    obtain rfl : n = p.length + 1 := by simpa using hsummed.symm
    simp [hn, Config.tail, eq_comm]

end Sys2Proof.Machine
end

section
/-! PROOF. The events of an operation and of a step, and the dispatcher inside `RX.PUSH`: every `FRAME` event is that of its frame's
row (44_dispatch.md section 1; 60_exceptions.md section 1; 00_scope.md section 4). -/

namespace Sys2Proof.Machine

open Sys2Proof.Laws

/-! ## The row of a frame -/

/-- The row of a type delivers the event that the dispatcher gives for it. -/
theorem exec_decodeType (len t : Byte) (p : List Byte) (s : State) :
    exec (decodeType len t p) s = .next (s.give (.events [dispatch t p])) := by
  by_cases h : t ∈ Config.typeRegistry
  · rcases registered_cases h with rfl | rfl | rfl | rfl | rfl | rfl | rfl | rfl <;> rfl
  · rw [decodeType_of_unregistered len h, dispatch_of_unregistered h]
    exact deliver_eq ..

/-- A `FRAME` event of a push is what the dispatcher gives for its frame. -/
theorem frame_eq_dispatch_of_mem_pushByte {q : List Byte} {b t plen sel : Byte} {p : List Byte} {known : Bool}
    (h : .frame t plen p known sel ∈ (pushByte q b).1) : .frame t plen p known sel = dispatch t p := by
  by_cases hq : q.length < 256
  · obtain ⟨r, he⟩ | ⟨t', p', he, -⟩ := (drains_pushByte b hq).event_cases h
    · exact absurd he.symm (reasonEvent_ne_frame r _ _ _ _ _)
    · obtain ⟨rfl, -, rfl, -, -⟩ := Event.frame.inj he
      exact he
  · simp [pushByte_of_le b (not_lt.mp hq)] at h

/-- The `LEN` byte of a payload that the parser can deliver is an acceptable one. -/
theorem acceptableLength_of_le {p : List Byte} (hp : p.length ≤ 251) : acceptableLength (BitVec.ofNat 8 (p.length + 2)) p = true := by
  have hlen : (BitVec.ofNat 8 (p.length + 2)).toNat = p.length + 2 := lenByte_toNat p.length (by omega)
  have hmax : Config.maxPayload = 251 := rfl
  simp [acceptableLength, hlen, hmax, hp, Config.lenOverhead]

/-! ## The events of an operation -/

/-- A push gives the events of the codes 1 to 5. -/
theorem code_of_mem_pushByte {q : List Byte} {b : Byte} {e : Event} (h : e ∈ (pushByte q b).1) :
    e.code ∈ [0x1#4, 0x2#4, 0x3#4, 0x4#4, 0x5#4] := by
  by_cases hq : q.length < 256
  · obtain ⟨r, rfl⟩ | ⟨t, p, rfl, -⟩ := (drains_pushByte b hq).event_cases h
    · cases r <;> decide
    · exact List.mem_cons_self
  · rw [pushByte_of_le b (not_lt.mp hq), List.mem_singleton] at h
    subst h
    decide

/-- The encoder gives no event but `TX_TOO_LONG`. -/
theorem eq_txTooLong_of_mem {t : Byte} {p : List Byte} {e : Event} (h : e ∈ eventsOf [txResult t p]) : e = .txTooLong p.length := by
  obtain ⟨-, hres⟩ | ⟨-, hres⟩ := txResult_cases t p
  · simp [hres, eventsOf] at h
  · simpa [hres] using h

/-- Which instruction gives which events. -/
theorem event_of_resultOf {i : Instr} {s : State} {e : Event} (h : e ∈ eventsOf (resultOf i s).toList) :
    (∃ b, i = .rxPush b ∧ e ∈ (pushByte s.rxq b).1) ∨ (∃ t p, i = .txEnc t p ∧ e = .txTooLong p.length) ∨
      (unitOf i = .dsp ∧ e.code = 0x1#4) := by
  cases i with
  | csClr | csAdd | csGet | csVfy | cidPack | cidUnpack | rxFlush => simp [resultOf, eventsOf] at h
  | txEnc t p => exact .inr (.inl ⟨t, p, rfl, eq_txTooLong_of_mem h⟩)
  | rxPush b => exact .inl ⟨b, rfl, by simpa [resultOf] using h⟩
  | _ =>
    simp only [resultOf, Option.toList_some, eventsOf_events, List.mem_singleton] at h
    subst h
    exact .inr (.inr ⟨rfl, rfl⟩)

/-- The results that a step appends come from an instruction or from a reserved code. -/
theorem step_out_cases {s t : State} {outs : List Output} (h : step s = .next t) (hout : t.out = s.out ++ outs) :
    outs = [] ∨
    (∃ cmd w f p rest i, s.pending = .issue cmd w f p :: rest ∧ decodeCommand cmd w f p = .ok i ∧
      outs = (resultOf i (s.setPending rest)).toList) ∨
    (∃ cmd w f p rest op, s.pending = .issue cmd w f p :: rest ∧ decodeCommand cmd w f p = .error op ∧
      outs = [.events [.opReserved op]]) := by
  obtain ⟨-, rfl⟩ | ⟨rest, -, rfl⟩ | ⟨cmd, w, f, p, rest, i, hp, hd, hi⟩ | ⟨cmd, w, f, p, rest, op, hp, hd, rfl⟩ := step_cases s t h
  · exact .inl (by simpa using hout)
  · exact .inl (by simpa [applyReset] using hout)
  · obtain ⟨-, -, -, -, hres⟩ := exec_fields hi
    exact .inr (.inl ⟨cmd, w, f, p, rest, i, hp, hd, List.append_cancel_left (hout.symm.trans hres)⟩)
  · exact .inr (.inr ⟨cmd, w, f, p, rest, op, hp, hd, (List.append_cancel_left hout).symm⟩)

/-- A command that decodes to a push has its code. -/
theorem opOf_of_decodeCommand_rxPush {cmd : BitVec 12} {w : Word} {f : CanFields} {p : List Byte} {b : Byte}
    (h : decodeCommand cmd w f p = .ok (.rxPush b)) : opOf cmd = 0xC#4 :=
  (BitVec.eq_of_toNat_eq (rowBits_encode_of_decodeCommand h)).symm.trans (opOf_commandWord 0xC#4 b)

/-- A command that decodes to `TX.ENC` has its code, and its payload is the carried one. -/
theorem opOf_of_decodeCommand_txEnc {cmd : BitVec 12} {w : Word} {f : CanFields} {p p' : List Byte} {t : Byte}
    (h : decodeCommand cmd w f p = .ok (.txEnc t p')) : opOf cmd = 0x8#4 ∧ p' = p := by
  have hop : opOf cmd = 0x8#4 :=
    (BitVec.eq_of_toNat_eq (rowBits_encode_of_decodeCommand h)).symm.trans (opOf_commandWord 0x8#4 t)
  have hdec := decode_txEnc (argOf cmd) w f p
  rw [← hop, commandWord_opOf_argOf, decode_command_eq_ok_iff, h] at hdec
  cases hdec
  exact ⟨hop, rfl⟩

/-! ## The obligations -/

/-- Settles O46: the codes by their definition, the events of an instruction from its result, and those of a step from the instruction
or reserved code that it takes. -/
theorem eventsOfOperations : Obligations.EventsOfOperations := by
  refine ⟨⟨fun _ _ _ _ _ => rfl, rfl, rfl, rfl, rfl, fun _ => rfl, fun _ => rfl⟩, ⟨rfl, rfl, rfl⟩,
    fun i s t outs h hout e he => ?_, fun s t outs h hout e he => ?_⟩
  · obtain ⟨-, -, -, -, hres⟩ := exec_fields h
    obtain rfl := List.append_cancel_left (hout.symm.trans hres)
    obtain ⟨b, rfl, hmem⟩ | ⟨ty, p, rfl, rfl⟩ | hdsp := event_of_resultOf he
    · exact .inl ⟨⟨b, rfl⟩, code_of_mem_pushByte hmem⟩
    · exact .inr (.inl ⟨⟨ty, p, rfl, rfl⟩, rfl⟩)
    · exact .inr (.inr hdsp)
  · obtain rfl | ⟨cmd, w, f, p, rest, i, hp, hd, rfl⟩ | ⟨cmd, w, f, p, rest, op, hp, hd, rfl⟩ := step_out_cases h hout
    · simp at he
    all_goals
      refine ⟨opOf cmd, argOf cmd, w, f, p, rest, by rw [commandWord_opOf_argOf, hp], ?_⟩
    · obtain ⟨b, rfl, hmem⟩ | ⟨ty, p', rfl, rfl⟩ | ⟨hdsp, -⟩ := event_of_resultOf he
      · exact .inl ⟨opOf_of_decodeCommand_rxPush hd, code_of_mem_pushByte hmem⟩
      · obtain ⟨hop, rfl⟩ := opOf_of_decodeCommand_txEnc hd
        exact .inr (.inl ⟨hop, rfl⟩)
      · exact absurd hdsp (unitOf_ne_dsp_of_decodeCommand hd)
    · obtain ⟨rfl, hres⟩ := reserved_of_decodeCommand_error hd
      rw [eventsOf_events, List.mem_singleton] at he
      exact .inr (.inr ⟨hres, he⟩)

/-- Settles O33: the loop's event for an accepted frame is `dispatch`, which the row of the frame's type delivers. -/
theorem pushDeliversThroughItsRow : Obligations.PushDeliversThroughItsRow := by
  refine ⟨fun b len t p q' s hlen hd => ?_, fun b t plen sel p known evs s u _ hexec hout hmem => ?_, fun len t p s => ?_,
    fun cmd w f p i h => ?_⟩
  · have hpush : (pushByte s.rxq b).1 = dispatch t p :: (drain (s.rxq.length + 1) q').1 := by
      rw [pushByte_of_lt b hlen, drain_of_frame hd, firstEvent]
    refine ⟨_, dispatch t p, (drain (s.rxq.length + 1) q').1, _, decode_frameHeader len t p, unitOf_decodeType len t p,
      exec_decodeType len t p s, exec_rxPush b s, ?_⟩
    rw [hpush, State.give_out, State.setRxq_out]
  · rw [events_of_exec_rxPush hexec hout] at hmem
    refine ⟨_, decode_frameHeader _ t p, ?_, unitOf_decodeType _ t p, ?_⟩
    · rw [wellFormed_decodeType, acceptableLength_of_le (length_of_frame_mem_pushByte hmem).1]
    · rw [frame_eq_dispatch_of_mem_pushByte hmem]
      exact exec_decodeType _ t p s
  · exact ⟨_, decode_frameHeader len t p, unitOf_decodeType len t p, exec_decodeType len t p s⟩
  · exact unitOf_ne_dsp_of_decodeCommand ((decode_command_eq_ok_iff cmd w f p i).mp h)

/-- Settles O34: the push of a frame's tail delivers the frame's event and empties the queue, and so does the frame's row on the state
without the frame. -/
theorem stepRunsDecodedInstruction : Obligations.StepRunsDecodedInstruction := by
  refine ⟨fun cmd w f p rest i s hp hd => ?_, fun w f p' t p rest i s hlen hq hp hd => ?_⟩
  · exact step_of_ok hp ((decode_command_eq_ok_iff cmd w f p i).mp hd)
  · rw [decode_frameHeader] at hd
    cases hd
    have hqueue : s.rxq = (encodeFrame t p).dropLast := by rw [← hq, List.dropLast_concat]
    have htail := (decode_command_eq_ok_iff _ w f p' _).mp (decode_rxPush Config.tail w f p')
    calc step s = exec (.rxPush Config.tail) (s.setPending rest) := step_of_ok hp htail
      _ = .next (((s.setPending rest).setRxq []).give (.events [dispatch t p])) := by
        rw [exec_rxPush, State.setPending_rxq, hqueue, pushByte_tail t p hlen]
      _ = exec (decodeType _ t p) ((s.setPending rest).setRxq []) := (exec_decodeType _ t p _).symm

/-- Settles O36: the nine codes decode, and the step that meets one of the seven others gives its event. -/
theorem reservedCodesAreReported : Obligations.ReservedCodesAreReported :=
  fun _ a w f p => ⟨fun h => exists_decode_of_not_reserved h a w f p,
    fun h _ _ hp => step_of_error hp (decodeCommand_of_reserved h a w f p)⟩

end Sys2Proof.Machine
end

section
/-! PROOF. The arithmetic laws of the checksum (40_checksum.md section 3) and the field masks of a valid layout (41_canid.md
section 1). -/

namespace Sys2Proof.Machine

/-! ## The checksum -/

/-- Copies of one byte add up to a multiple of it. -/
theorem checksum_replicate_toNat (n : Nat) (x : Byte) : (checksum (List.replicate n x)).toNat = n * x.toNat % 256 := by
  rw [checksum_toNat, List.map_replicate, List.sum_replicate, smul_eq_mul]

/-- Settles O6: the checksum is a sum modulo 256. -/
theorem checksumArithmeticLaws : Obligations.ChecksumArithmeticLaws := by
  refine ⟨fun a b => ?_, fun a b h => checksum_perm h, checksum_insert_zero, fun x => ?_⟩
  · rw [checksum_append, BitVec.toNat_add]
  · apply BitVec.eq_of_toNat_eq
    rw [checksum_replicate_toNat, Nat.mul_mod_right]
    rfl

/-! ## The field masks -/

section ValidLayout

variable {l : Layout} (hl : l.valid = true)

include hl

/-- A mask's bits are its field's. -/
theorem fieldMask_getLsbD (f : CanField) (i : Nat) : (fieldMask l f).getLsbD i = l.holds f i := by
  rw [fieldMask, BitVec.getLsbD_ofNat, Nat.testBit_mul_two_pow, Nat.testBit_two_pow_sub_one, Bool.eq_iff_iff]
  have hfit : l.holds f i = true → i < 32 := Layout.lt_of_holds hl
  rw [Layout.holds_iff] at hfit ⊢
  simp only [Bool.and_eq_true, decide_eq_true_eq]
  omega

/-- The masks of two fields share no bit. -/
theorem fieldMask_disjoint {f g : CanField} (hne : f ≠ g) : fieldMask l f &&& fieldMask l g = 0#32 := by
  apply BitVec.eq_of_getLsbD_eq
  intro i _
  rw [BitVec.getLsbD_and, fieldMask_getLsbD hl, fieldMask_getLsbD hl, BitVec.getLsbD_zero, Bool.and_eq_false_imp]
  exact fun hf => Bool.eq_false_iff.mpr fun hg => hne (Layout.holds_unique hl hf hg)

/-- A bit of the masks' OR is a bit of one of the fields. -/
theorem foldl_fieldMask_getLsbD (i : Nat) :
    (CanField.all.foldl (fun acc f => acc ||| fieldMask l f) 0#32).getLsbD i = CanField.all.any fun f => l.holds f i := by
  simp [CanField.all, fieldMask_getLsbD hl, Bool.or_assoc]

/-- The masks together leave no bit out. -/
theorem foldl_fieldMask : CanField.all.foldl (fun acc f => acc ||| fieldMask l f) 0#32 = 0xFFFFFFFF#32 := by
  have hones : 0xFFFFFFFF#32 = BitVec.allOnes 32 := rfl
  rw [hones]
  apply BitVec.eq_of_getLsbD_eq
  intro i hi
  obtain ⟨f, hf⟩ := Layout.exists_holds hl hi
  rw [foldl_fieldMask_getLsbD hl, BitVec.getLsbD_allOnes, decide_eq_true hi, List.any_eq_true]
  exact ⟨f, CanField.mem_all f, hf⟩

end ValidLayout

/-- Under the default layout the identifier proper is the container's low 29 bits. -/
theorem id29_cidLayout (w : Word) : id29 Config.cidLayout w = (w.extractLsb' 0 29).setWidth 32 := by
  apply BitVec.eq_of_getLsbD_eq
  intro i hi
  have hmask : (fieldMask Config.cidLayout .reserved).getLsbD i = !decide (i < 29) := by
    rw [fieldMask_getLsbD (by decide), Bool.eq_iff_iff, Layout.holds_iff, Bool.not_eq_true', decide_eq_false_iff_not, not_lt]
    exact and_iff_left hi
  rw [id29, BitVec.getLsbD_and, BitVec.getLsbD_not, hmask, BitVec.getLsbD_setWidth, BitVec.getLsbD_extractLsb', Nat.zero_add,
    decide_eq_true hi, Bool.not_not, Bool.true_and, Bool.true_and, Bool.and_comm]

/-- Settles O15, from the bits of a mask, which belong to one field each. -/
theorem masksTileContainer : Obligations.MasksTileContainer := by
  refine ⟨fun l hl => ⟨fun f g hne => fieldMask_disjoint hl hne, foldl_fieldMask hl, fun f i => ?_⟩, id29_cidLayout⟩
  rw [fieldMask_getLsbD hl, Layout.holds_iff]

end Sys2Proof.Machine
end
